-- ==== Sys2Proof/Word.lean ====
section
/-! DEFINITION. The block's two word types: the 32-bit register slot and the 8-bit port or byte. -/

namespace Sys2Proof

/-- A register slot or command word (20_memory.md R29, 30_encoding.md R48). -/
abbrev Word := BitVec 32

/-- A byte of a register (20_memory.md R37) or the value of an 8-bit port (10_state.md R20). -/
abbrev Byte := BitVec 8

end Sys2Proof
end

