-- ==== Sys2Proof/Syntax.lean ====
section
/-! DEFINITION. The commands: one constructor per row of spec/opcode_table.json (30_encoding.md R50).
Durations and step counts are unsigned naturals (R53); the four SUB bits stay bits (R51, R52). -/

namespace Sys2Proof

/-- The seven commands (30_encoding.md R50). -/
inductive Instr where
  /-- TCFG, `configure_tick_source(mode)`, with the mode as the SUB field (41_timer.md R64). -/
  | tcfg (m : BitVec 4)
  /-- TSTOP, `stop_tick_source()` (41_timer.md R66). -/
  | tstop
  /-- WAIT, `wait(duration_ms)` (41_timer.md R76). -/
  | wait (d : Nat)
  /-- EINIT, `init_encoder()` (43_quadrature.md R86). -/
  | einit
  /-- EREAD, `read_encoder()` (43_quadrature.md R89). -/
  | eread
  /-- SINIT, `init_stepper()` (44_stepper.md R97). -/
  | sinit
  /-- SMOVE, `move_by_steps(step_count, direction)`, the direction as the SUB field (44_stepper.md R101). -/
  | smove (dir : BitVec 4) (n : Nat)
  deriving DecidableEq, Repr

end Sys2Proof
end

