-- ==== Sys2Proof/WellFormed.lean ====
section
/-! DEFINITION. Which commands have a command word: IMM is a 16-bit unsigned operand (30_encoding.md R49,
R53), and an operand outside its range produces no word (R60). -/

namespace Sys2Proof

/-- The operands fit the fields of the command word (30_encoding.md R49, R53, R60). -/
def Instr.wellFormed : Instr → Bool
  | .tcfg _ => true
  | .tstop => true
  | .wait d => decide (d < 65536)
  | .einit => true
  | .eread => true
  | .sinit => true
  | .smove _ n => decide (n < 65536)

end Sys2Proof
end

