-- ==== Sys2Proof/Decode.lean ====
section
/-! DEFINITION. The command word's fields, the total decoder and the encoder (30_encoding.md R48 to R55), and
the byte numbering of a register (20_memory.md R37). -/

namespace Sys2Proof

/-- Why a word is illegal (30_encoding.md R54). -/
inductive IllegalCmd where
  /-- RSV ≠ 0. -/
  | reservedBits
  /-- OP = 0x0 or OP ≥ 0x8. -/
  | reservedOpcode
  /-- SUB ≠ 0 on a command without a sub-operand. -/
  | subNotZero
  /-- IMM ≠ 0 on a command without a 16-bit operand. -/
  | immNotZero
  /-- Not exactly one 32-bit word (30_encoding.md R62); no host access of 4 bytes gives it. -/
  | notOneWord
  deriving DecidableEq, Repr

/-- What a word decodes to: `Cmd | Illegal` of 30_encoding.md R55. -/
inductive Decoded where
  | cmd (i : Instr)
  | illegal (why : IllegalCmd)
  deriving DecidableEq, Repr

/-- OP, bits 3:0 (30_encoding.md R49). -/
def opField (w : Word) : BitVec 4 := w.extractLsb' 0 4
/-- SUB, bits 7:4 (30_encoding.md R49). -/
def subField (w : Word) : BitVec 4 := w.extractLsb' 4 4
/-- RSV, bits 15:8 (30_encoding.md R49). -/
def rsvField (w : Word) : Byte := w.extractLsb' 8 8
/-- IMM, bits 31:16 (30_encoding.md R49). -/
def immField (w : Word) : BitVec 16 := w.extractLsb' 16 16

/-- `Decode(w)`, in the order of 30_encoding.md R55. -/
def decode (w : Word) : Decoded :=
  if rsvField w ≠ 0#8 then .illegal .reservedBits
  else match (opField w).toNat with
    | 1 => if immField w ≠ 0#16 then .illegal .immNotZero else .cmd (.tcfg (subField w))
    | 2 => if subField w ≠ 0#4 then .illegal .subNotZero
           else if immField w ≠ 0#16 then .illegal .immNotZero else .cmd .tstop
    | 3 => if subField w ≠ 0#4 then .illegal .subNotZero else .cmd (.wait (immField w).toNat)
    | 4 => if subField w ≠ 0#4 then .illegal .subNotZero
           else if immField w ≠ 0#16 then .illegal .immNotZero else .cmd .einit
    | 5 => if subField w ≠ 0#4 then .illegal .subNotZero
           else if immField w ≠ 0#16 then .illegal .immNotZero else .cmd .eread
    | 6 => if subField w ≠ 0#4 then .illegal .subNotZero
           else if immField w ≠ 0#16 then .illegal .immNotZero else .cmd .sinit
    | 7 => .cmd (.smove (subField w) (immField w).toNat)
    | _ => .illegal .reservedOpcode

/-- A command word from its fields, RSV = 0 (30_encoding.md R49): `IIIIIIIIIIIIIIII RRRRRRRR SSSS OOOO`. -/
def commandWord (op sub : BitVec 4) (imm : BitVec 16) : Word := imm ++ 0#8 ++ sub ++ op

/-- The word of a command (30_encoding.md R50, R60). -/
def encode : Instr → Word
  | .tcfg m => commandWord 1#4 m 0#16
  | .tstop => commandWord 2#4 0#4 0#16
  | .wait d => commandWord 3#4 0#4 (BitVec.ofNat 16 d)
  | .einit => commandWord 4#4 0#4 0#16
  | .eread => commandWord 5#4 0#4 0#16
  | .sinit => commandWord 6#4 0#4 0#16
  | .smove dir n => commandWord 7#4 dir (BitVec.ofNat 16 n)

/-- Byte `k` of a register: bits `8k+7 : 8k` (20_memory.md R37). -/
def byteOf (w : Word) (k : Nat) : Byte := w.extractLsb' (8 * k) 8

/-- `w` with byte `k` replaced by `b` (20_memory.md R37). -/
def setByte (w : Word) (k : Nat) (b : Byte) : Word :=
  (w &&& ~~~ ((0xFF : Word) <<< (8 * k))) ||| (b.setWidth 32 <<< (8 * k))

/-- The four bytes of a register, the byte at the lowest address first (20_memory.md R37). -/
def bytesOf (w : Word) : List Byte := [byteOf w 0, byteOf w 1, byteOf w 2, byteOf w 3]

/-- The decoder on bytes in address order: a command is exactly one little-endian 32-bit word
(30_encoding.md R62, 20_memory.md R37). -/
def decodeBytes : List Byte → Decoded
  | [b0, b1, b2, b3] => decode (b3 ++ b2 ++ b1 ++ b0)
  | _ => .illegal .notOneWord

/-- The command the decoder reads from a table word: `w`'s low `nbits` bits, laid out as four little-endian
bytes. -/
def decodeTableWord (nbits w : Nat) : Option Instr :=
  match decodeBytes (bytesOf (BitVec.ofNat 32 (w % 2 ^ nbits))) with
  | .cmd i => some i
  | .illegal _ => none

end Sys2Proof
end

