-- ==== Sys2Proof/Machine/Event.lean ====
section
/-! DEFINITION. The turns of the block's agents as plain data: a host access, a sequencer step, a compare
match, an interrupt-handler step (10_state.md R9, 20_memory.md R38). ENV has no turn of its own: its draws
are supplied when a line is sampled (10_state.md R21). -/

namespace Sys2Proof.Machine

/-- A host access: its address, its width in bytes and, for a write, the value (20_memory.md R31). -/
inductive HostAccess where
  | read (addr bytes : Nat)
  | write (addr bytes : Nat) (value : Word)
  deriving DecidableEq, Repr, Inhabited

/-- Whose turn it is (10_state.md R9). -/
inductive Event where
  /-- HOST makes one access. -/
  | host (a : HostAccess)
  /-- SEQ makes one μ-step. -/
  | seq
  /-- MATCH: the timer's compare match. -/
  | compareMatch
  /-- ISR: the interrupt handler. -/
  | isr
  deriving DecidableEq, Repr, Inhabited

end Sys2Proof.Machine
end

