-- ==== Sys2Proof/Config.lean ====
section
/-! DEFINITION. What is fixed for a run: the source's constants (00_scope.md R4), the parameters a model takes
as an argument (R3, R5), and the free values, constants without a body (R5's OPEN rows, 10_state.md R17, R21,
60_exceptions.md R115). -/

namespace Sys2Proof

/-- SEQ_MODE (00_scope.md R3). -/
inductive SeqMode where
  | compatible
  | strict
  deriving DecidableEq, Repr

/-- TICK_W, the width of `elapsed_ticks`: a multiple of 8 from 8 to 32 (00_scope.md R5). -/
inductive TickWidth where
  | w8
  | w16
  | w24
  | w32
  deriving DecidableEq, Repr

/-- TICK_W / 8, the number of byte steps of a non-atomic access (20_memory.md R39). -/
def TickWidth.bytes : TickWidth → Nat
  | .w8 => 1
  | .w16 => 2
  | .w24 => 3
  | .w32 => 4

/-- TICK_W in bits. -/
def TickWidth.bits (w : TickWidth) : Nat := 8 * w.bytes

/-- The two prescaler settings (00_scope.md R4, 41_timer.md R63). -/
inductive Prescale where
  | slow
  | fast
  deriving DecidableEq, Repr

/-- The divisor of a prescaler setting: PRESCALE_SLOW = 64, PRESCALE_FAST = 1 (00_scope.md R4). No rule of the
model reads it: both modes give the same tick (10_state.md R15). -/
def Prescale.divisor : Prescale → Nat
  | .slow => 64
  | .fast => 1

/-- The parameters of 00_scope.md R3 and R5 that some rule reads. PORT_W is 8, its only legal value. -/
structure Params where
  /-- SEQ_MODE, "fixed for a whole run" (R3). -/
  seqMode : SeqMode
  /-- TICK_W. -/
  tickW : TickWidth
  /-- TICK_ACCESS_ATOMIC. -/
  tickAtomic : Bool
  /-- STEP_SHIFT, 0 to PORT_W − 4. -/
  stepShift : Fin 5
  /-- ENC_A_BIT, the bit of port E of the first line. -/
  encA : Fin 8
  /-- ENC_B_BIT, the bit of port E of the second line. -/
  encB : Fin 8
  /-- PHASE_INIT, one-hot. -/
  phaseInit : BitVec 4
  /-- STEP_INIT_PATTERN. -/
  stepInitPattern : BitVec 4
  /-- INVALID_DIR_WRITES. -/
  invalidDirWrites : Bool
  /-- BLOCK_BASE, OPEN and 64-byte aligned (D4). -/
  blockBase : Nat
  deriving DecidableEq, Repr

/-- The values are legal: 00_scope.md R5, "legal values". -/
def Params.legal (p : Params) : Bool :=
  decide (p.encA ≠ p.encB) && decide (p.phaseInit ∈ [1#4, 2#4, 4#4, 8#4]) && decide (p.blockBase % 64 = 0)

/-- The defaults of 00_scope.md R3 and R5. BLOCK_BASE has no default there: DESIGN CHOICE 0, unsafe for a claim
about this one value (log 2). -/
def Params.default : Params where
  seqMode := .compatible
  tickW := .w16
  tickAtomic := true
  stepShift := 0
  encA := 1
  encB := 0
  phaseInit := 0b0001
  stepInitPattern := 0b0001
  invalidDirWrites := true
  blockBase := 0

namespace Config

/-- TICK_PERIOD_MS (00_scope.md R4): nominal, read by no rule. -/
def tickPeriodMs : Nat := 1
/-- STEP_LINES (00_scope.md R4): the width of a phase pattern, read by no rule. -/
def stepLines : Nat := 4
/-- ENC_LINES (00_scope.md R4): the width of a sample, read by no rule. -/
def encLines : Nat := 2
/-- MICRO_PER_STEP (00_scope.md R4). -/
def microPerStep : Nat := 5
/-- PACE_MS (00_scope.md R4). -/
def paceMs : Nat := 2
/-- SETTLE_MS (00_scope.md R4). -/
def settleMs : Nat := 2
/-- WAIT_MODE, the mode `wait` configures (00_scope.md R4). -/
def waitMode : Prescale := .slow
/-- DETENT, both lines high (00_scope.md R4, 43_quadrature.md R84). -/
def detent : BitVec 2 := 0b11

/-- OCR_SLOW, OPEN (00_scope.md R5): any value (log 3). -/
opaque ocrSlow : Word
/-- OCR_FAST, OPEN (00_scope.md R5): any value (log 3). -/
opaque ocrFast : Word
/-- F_CLK in Hz, OPEN and informational: no rule reads it (00_scope.md R5, log 3). -/
opaque fClk : Nat
/-- TICK_VECTOR, OPEN: no rule reads it (00_scope.md R5, 60_exceptions.md R114, log 3). -/
opaque tickVector : Nat
/-- TCOMP's value at reset, "unspecified (a draw at reset)" (10_state.md R17, log 4). -/
opaque tcompReset : Word
/-- Whose turn it is where the agenda says nothing: any agent (60_exceptions.md R115, log 6). -/
opaque freeEvent : Nat → Machine.Event
/-- The levels ENV gives the lines of a port at a sample, where `draws` says nothing (10_state.md R21, log 8). -/
opaque freeLevels : Nat → Byte

end Config

end Sys2Proof
end

