-- ==== Sys2Proof/Machine/State.lean ====
section
/-! DEFINITION. The state of the block as plain data (10_state.md R9 to R28), the model's own bookkeeping beside
it, the reasons a step can stop, and the state at reset (10_state.md R28, 70_reset_and_hazards.md R126). -/

namespace Sys2Proof.Machine

/-- STATUS.RESULT (60_exceptions.md R110). Codes 5 to 7 are never written, so they have no constructor. -/
inductive ResultCode where
  | ok
  | invMode
  | invDir
  | invCount
  | illegalCmd
  deriving DecidableEq, Repr

/-- The decoder's output: STATUS.EDELTA, whose code `10` is never written (10_state.md R13). -/
inductive Delta where
  | zero
  | plus
  | minus
  deriving DecidableEq, Repr

/-- TCTRL.MODE; `11` is never written (10_state.md R14). -/
inductive TimerMode where
  | off
  | slow
  | fast
  deriving DecidableEq, Repr

/-- TCTRL (10_state.md R14): MODE, TIE, GIE, PEND. -/
structure TimerControl where
  mode : TimerMode
  tie : Bool
  gie : Bool
  pend : Bool
  deriving DecidableEq, Repr

/-- The stored registers of one GPIO port (10_state.md R20). -/
structure Port where
  ddr : Byte
  out : Byte
  pue : Byte
  deriving DecidableEq, Repr

/-- The fault names of 60_exceptions.md R111. -/
inductive FaultName where
  | badAccess
  | roWrite
  | cmdWhileBusy
  | hostWriteWhileBusy
  deriving DecidableEq, Repr

/-- FAULTS, a set of fault names: one membership bit per name (10_state.md R26). -/
structure FaultSet where
  badAccess : Bool
  roWrite : Bool
  cmdWhileBusy : Bool
  hostWriteWhileBusy : Bool
  deriving DecidableEq, Repr

/-- The locals `L` of the running command (10_state.md R25). `v` stands in a 32-bit word, TICK_W bits of it used. -/
structure Locals where
  /-- The duration of the running WaitProg. -/
  d : Nat
  /-- The value last read by POLL. -/
  v : Word
  /-- The SMOVE phase bit. -/
  p : BitVec 4
  /-- The SMOVE iteration count. -/
  it : Nat
  /-- The SMOVE iteration limit. -/
  lim : Nat
  /-- The micro-advance count within an iteration. -/
  m : Nat
  /-- The SMOVE step count operand. -/
  n : Nat
  /-- The SMOVE direction operand. -/
  dir : BitVec 4
  deriving DecidableEq, Repr

/-- SEQ (10_state.md R11): Idle, or running the μ-program of command `c` at index `i` with locals `L`. The
μ-program itself is a function of `c` and the parameters (log 10). -/
inductive Seq where
  | idle
  | run (c : Instr) (i : Nat) (L : Locals)
  deriving DecidableEq, Repr

/-- Why a step stops. -/
inductive Fault where
  /-- Raised by a command's meaning where SEQ's index names no μ-operation of the command's μ-program. No run
  from reset gets there (the statement SequencerPositionInvariant); safe: the machine stops. Log 12. -/
  | seqOutsideProgram
  deriving DecidableEq, Repr

/-- Why an instruction has no meaning. -/
inductive Refusal where
  /-- Raised only by an arm of `exec` that has no meaning yet (no arm does); safe. -/
  | notModelled (mnemonic : String)
  deriving DecidableEq, Repr

/-- The block (10_state.md R28's table), then the model's own fields. -/
structure State where
  /-- The parameters, fixed for a run (00_scope.md R3, R5); no step writes them. -/
  cfg : Params
  /-- SEQ (R11). -/
  seq : Seq
  /-- STATUS.RESULT (R13). -/
  result : ResultCode
  /-- STATUS.EDELTA (R13). -/
  edelta : Delta
  /-- PREV, `previous_reading`, read as STATUS.ENC_PREV (R24). -/
  prev : BitVec 2
  /-- TCTRL (R14). -/
  tctrl : TimerControl
  /-- TCOMP (R17). -/
  tcomp : Word
  /-- TICKS, `elapsed_ticks`, TICK_W bits (R19). -/
  ticks : Word
  /-- Port S, the stepper lines (R20). -/
  portS : Port
  /-- Port E, the encoder lines (R20). -/
  portE : Port
  /-- FAULTS (R26). -/
  faults : FaultSet
  /-- The model's own: the turns to come, oldest first (log 6). -/
  agenda : List Event
  /-- The model's own: ENV's levels for the port samples to come, oldest first (log 8). -/
  draws : List Byte
  /-- The model's own: the number of free values used so far (logs 6, 8). -/
  freeIx : Nat
  /-- The model's own: what the last host access returned (20_memory.md R32, log 15). -/
  readData : Option Word
  deriving DecidableEq, Repr

/-- STATUS.BUSY: 1 iff SEQ ≠ Idle (10_state.md R13). -/
def State.busy (s : State) : Bool :=
  match s.seq with
  | .idle => false
  | .run _ _ _ => true

/-- The reset values of 10_state.md R28 for given parameters. TCOMP is a draw; the four fields of the model's
own are DESIGN CHOICE (logs 4, 6, 8, 15). -/
def State.resetWith (p : Params) : State where
  cfg := p
  seq := .idle
  result := .ok
  edelta := .zero
  prev := Config.detent
  tctrl := { mode := .off, tie := false, gie := false, pend := false }
  tcomp := Config.tcompReset
  ticks := 0
  portS := { ddr := 0, out := 0, pue := 0 }
  portE := { ddr := 0, out := 0, pue := 0 }
  faults := { badAccess := false, roWrite := false, cmdWhileBusy := false, hostWriteWhileBusy := false }
  agenda := []
  draws := []
  freeIx := 0
  readData := none

/-- The block right after power-on reset with the default parameters (70_reset_and_hazards.md R126, log 1). -/
def State.reset : State := State.resetWith Params.default

end Sys2Proof.Machine
end

