-- ==== Sys2Proof/Machine/Flags.lean ====
section
/-! DEFINITION. The status words the host reads and the codes of their fields (10_state.md R13, R14,
60_exceptions.md R110). The block has no arithmetic flags (10_state.md R10). -/

namespace Sys2Proof.Machine

/-- The number of a result code (60_exceptions.md R110). -/
def resultCode : ResultCode → BitVec 3
  | .ok => 0
  | .invMode => 1
  | .invDir => 2
  | .invCount => 3
  | .illegalCmd => 4

/-- EDELTA: `00` = 0, `01` = +1, `11` = −1 (10_state.md R13). -/
def deltaCode : Delta → BitVec 2
  | .zero => 0b00
  | .plus => 0b01
  | .minus => 0b11

/-- MODE: `00` off, `01` slow, `10` fast (10_state.md R14). -/
def modeCode : TimerMode → BitVec 2
  | .off => 0b00
  | .slow => 0b01
  | .fast => 0b10

/-- STRICT: 1 iff SEQ_MODE = strict (10_state.md R13). -/
def strictBit : SeqMode → Bool
  | .compatible => false
  | .strict => true

/-- The STATUS word: BUSY 0, RESULT 3:1, EDELTA 5:4, ENC_PREV 7:6, STRICT 8, bits 31:9 zero (10_state.md R13). -/
def statusWord (s : State) : Word :=
  0#23 ++ BitVec.ofBool (strictBit s.cfg.seqMode) ++ s.prev ++ deltaCode s.edelta ++ resultCode s.result
    ++ BitVec.ofBool s.busy

/-- The TCTRL word: MODE 1:0, TIE 2, GIE 3, PEND 4, bits 31:5 zero (10_state.md R14). -/
def tctrlWord (t : TimerControl) : Word :=
  0#27 ++ BitVec.ofBool t.pend ++ BitVec.ofBool t.gie ++ BitVec.ofBool t.tie ++ modeCode t.mode

end Sys2Proof.Machine
end

