-- ==== Sys2Proof/Machine/Operands.lean ====
section
/-! DEFINITION. What the operand fields mean (30_encoding.md R51 to R53, 44_stepper.md R94, R100) and the functions
on lines and patterns the commands use (10_state.md R20, R21, R23, 43_quadrature.md R83, 44_stepper.md R93). -/

namespace Sys2Proof.Machine

/-- TCFG's mode: 0x0 slow, 0x1 fast, anything else invalid (30_encoding.md R51). -/
def modeOperand (m : BitVec 4) : Option Prescale :=
  if m = 0#4 then some .slow else if m = 1#4 then some .fast else none

/-- TCTRL.MODE for a prescaler setting (10_state.md R14, 41_timer.md R63). -/
def modeOfPrescale : Prescale → TimerMode
  | .slow => .slow
  | .fast => .fast

/-- The compare value of a prescaler setting (41_timer.md R63). -/
def compareValue : Prescale → Word
  | .slow => Config.ocrSlow
  | .fast => Config.ocrFast

/-- SMOVE's direction is +1 or −1 (30_encoding.md R52). -/
def validDirection (dir : BitVec 4) : Bool := decide (dir = 1#4) || decide (dir = 15#4)

/-- `rotl4(p) = {p[2:0], p[3]}` (00_scope.md R6). -/
def rotl4 (p : BitVec 4) : BitVec 4 := p.extractLsb' 0 3 ++ p.extractLsb' 3 1

/-- `rotr4(p) = {p[0], p[3:1]}` (00_scope.md R6). -/
def rotr4 (p : BitVec 4) : BitVec 4 := p.extractLsb' 0 1 ++ p.extractLsb' 1 3

/-- `Adv(p, dir)`, one micro-advance (44_stepper.md R94). -/
def advance (p dir : BitVec 4) : BitVec 4 :=
  if dir = 1#4 then rotl4 p else if dir = 15#4 then rotr4 p else p

/-- The iteration limit of SMOVE (44_stepper.md R100). -/
def iterationLimit (mode : SeqMode) (n : Nat) : Nat :=
  match mode with
  | .compatible => n + 1
  | .strict => n

/-- STEP_MASK = 0xF << STEP_SHIFT (10_state.md R20). -/
def stepMask (shift : Fin 5) : Byte := (0xF : Byte) <<< shift.val

/-- `Merge(o, q)` (44_stepper.md R93). -/
def merge (shift : Fin 5) (o : Byte) (q : BitVec 4) : Byte :=
  (o &&& ~~~ stepMask shift) ||| (q.setWidth 8 <<< shift.val)

/-- The stepper bits of a latch value, the phase register (10_state.md R22). -/
def stepBits (shift : Fin 5) (o : Byte) : BitVec 4 := o.extractLsb' shift.val 4

/-- ENC_MASK, the two encoder bits of port E (10_state.md R20). -/
def encMask (p : Params) : Byte := ((1 : Byte) <<< p.encA.val) ||| ((1 : Byte) <<< p.encB.val)

/-- The levels of a port's eight lines: an output line reads its latch, an input line the draw; the pull-up has no
effect (10_state.md R21). -/
def pinLevels (x : Port) (levels : Byte) : Byte := (x.ddr &&& x.out) ||| (~~~ x.ddr &&& levels)

/-- The sample `{A, B}` of the two encoder lines (10_state.md R23). -/
def encoderSample (p : Params) (lines : Byte) : BitVec 2 :=
  BitVec.ofBool (lines.getLsbD p.encA.val) ++ BitVec.ofBool (lines.getLsbD p.encB.val)

/-- The decoder's transfer function `Q(prev, s)` (43_quadrature.md R83). -/
def quadrature (prev s : BitVec 2) : Delta :=
  if prev = 0b11#2 ∧ s = 0b10#2 then .plus
  else if prev = 0b11#2 ∧ s = 0b01#2 then .minus
  else .zero

end Sys2Proof.Machine
end

