-- ==== Sys2Proof/Machine/Ops.lean ====
section
/-! DEFINITION. The named operations over the block's registers: the fault record, the timer, the tick counter, the
compare match, taking the one interrupt and returning from it, the draws, the ports and the register window
(10_state.md, 20_memory.md, 41_timer.md, 60_exceptions.md). -/

namespace Sys2Proof.Machine

/-! ### FAULTS and SEQ -/

/-- FAULTS with one name added; a name is never removed (10_state.md R26). -/
def addFault (f : FaultSet) : FaultName → FaultSet
  | .badAccess => { f with badAccess := true }
  | .roWrite => { f with roWrite := true }
  | .cmdWhileBusy => { f with cmdWhileBusy := true }
  | .hostWriteWhileBusy => { f with hostWriteWhileBusy := true }

/-- Membership of a name in FAULTS. -/
def FaultSet.has (f : FaultSet) : FaultName → Bool
  | .badAccess => f.badAccess
  | .roWrite => f.roWrite
  | .cmdWhileBusy => f.cmdWhileBusy
  | .hostWriteWhileBusy => f.hostWriteWhileBusy

/-- FAULTS is empty. -/
def FaultSet.isEmpty (f : FaultSet) : Bool :=
  !f.badAccess && !f.roWrite && !f.cmdWhileBusy && !f.hostWriteWhileBusy

/-- `raise Fault(NAME)` (00_scope.md R7): the name joins FAULTS and the run goes on (log 11). -/
def State.raise (s : State) (name : FaultName) : State := { s with faults := addFault s.faults name }

/-- SEQ goes to index `i` of the μ-program of `c` with locals `L` (10_state.md R11). -/
def State.goto (s : State) (c : Instr) (i : Nat) (L : Locals) : State := { s with seq := .run c i L }

/-- `Done(code)`: RESULT is written and SEQ becomes Idle (10_state.md R12). -/
def State.finish (s : State) (code : ResultCode) : State := { s with result := code, seq := .idle }

/-! ### Timer, tick counter, interrupt -/

/-- `CFG(m)`, TimerConfigure (41_timer.md R63). -/
def State.timerConfigure (s : State) (m : Prescale) : State :=
  { s with
    tctrl := { s.tctrl with mode := modeOfPrescale m, tie := true, gie := true }
    tcomp := compareValue m }

/-- `STOP`, TimerStop (41_timer.md R65). -/
def State.timerStop (s : State) : State :=
  { s with tctrl := { s.tctrl with tie := false, mode := .off } }

/-- The value of TICKS: TICK_W bits, the bits above read 0 (10_state.md R19). -/
def State.tickValue (s : State) : Word := BitVec.ofNat 32 (s.ticks.toNat % 2 ^ s.cfg.tickW.bits)

/-- MATCH is enabled iff MODE ≠ 00 (41_timer.md R70). -/
def matchEnabled (t : TimerControl) : Bool := decide (t.mode ≠ .off)

/-- MATCH: PEND ← 1 where it is enabled; else the turn passes (41_timer.md R70, log 7). -/
def State.compareMatch (s : State) : State :=
  if matchEnabled s.tctrl then { s with tctrl := { s.tctrl with pend := true } } else s

/-- The interrupt is pending, enabled and globally enabled (41_timer.md R71, 60_exceptions.md R113). -/
def isrEnabled (t : TimerControl) : Bool := t.pend && t.tie && t.gie

/-- TAKING THE INTERRUPT and RETURNING from it, one atomic step: entry saves nothing, the handler clears PEND and
counts TICKS modulo 2^TICK_W, the end of the step is the return, and SEQ is where it was (41_timer.md R71, R72,
60_exceptions.md R114, R117, R118). Where the interrupt is not enabled the turn passes (log 7). -/
def State.takeInterrupt (s : State) : State :=
  if isrEnabled s.tctrl then
    { s with
      tctrl := { s.tctrl with pend := false }
      ticks := BitVec.ofNat 32 ((s.ticks.toNat + 1) % 2 ^ s.cfg.tickW.bits) }
  else s

/-! ### Draws and turns -/

/-- ENV's levels for one port sample: the head of `draws`, else a free value (10_state.md R21, log 8). -/
def State.drawnLevels (s : State) : Byte :=
  match s.draws with
  | v :: _ => v
  | [] => Config.freeLevels s.freeIx

/-- The state after a draw: it is used up, so the next sample draws afresh (10_state.md R21, log 8). -/
def State.afterDraw (s : State) : State :=
  match s.draws with
  | _ :: rest => { s with draws := rest }
  | [] => { s with freeIx := s.freeIx + 1 }

/-- Whose turn it is: the head of `agenda`, else a free value (10_state.md R9, 60_exceptions.md R115, log 6). -/
def State.nextEvent (s : State) : Event :=
  match s.agenda with
  | e :: _ => e
  | [] => Config.freeEvent s.freeIx

/-- The state once the turn is given out (log 6). -/
def State.afterEvent (s : State) : State :=
  match s.agenda with
  | _ :: rest => { s with agenda := rest }
  | [] => { s with freeIx := s.freeIx + 1 }

/-! ### The register window -/

/-- The thirteen mapped registers (20_memory.md R30). -/
inductive Reg where
  | cmd
  | status
  | tctrl
  | ticks
  | tcomp
  | sDdr
  | sOut
  | sPue
  | sPin
  | eDdr
  | eOut
  | ePue
  | ePin
  deriving DecidableEq, Repr

/-- The register at a byte offset from BLOCK_BASE; none where the offset is unmapped (20_memory.md R30). -/
def regAtOffset (off : Nat) : Option Reg :=
  match off with
  | 0x00 => some .cmd
  | 0x04 => some .status
  | 0x08 => some .tctrl
  | 0x0C => some .ticks
  | 0x10 => some .tcomp
  | 0x20 => some .sDdr
  | 0x24 => some .sOut
  | 0x28 => some .sPue
  | 0x2C => some .sPin
  | 0x30 => some .eDdr
  | 0x34 => some .eOut
  | 0x38 => some .ePue
  | 0x3C => some .ePin
  | _ => none

/-- The register a host access reaches: 4 bytes wide, at BLOCK_BASE plus a mapped offset (every mapped offset is a
multiple of 4); none is a bad access (20_memory.md R31). -/
def regOfAccess (p : Params) (addr bytes : Nat) : Option Reg :=
  if bytes = 4 ∧ p.blockBase ≤ addr then regAtOffset (addr - p.blockBase) else none

/-- The value of a register for given line levels, every unnamed bit 0; CMD reads 0 (20_memory.md R30, R32). -/
def regValue (s : State) (levels : Byte) : Reg → Word
  | .cmd => 0
  | .status => statusWord s
  | .tctrl => tctrlWord s.tctrl
  | .ticks => s.tickValue
  | .tcomp => s.tcomp
  | .sDdr => s.portS.ddr.setWidth 32
  | .sOut => s.portS.out.setWidth 32
  | .sPue => s.portS.pue.setWidth 32
  | .sPin => (pinLevels s.portS levels).setWidth 32
  | .eDdr => s.portE.ddr.setWidth 32
  | .eOut => s.portE.out.setWidth 32
  | .ePue => s.portE.pue.setWidth 32
  | .ePin => (pinLevels s.portE levels).setWidth 32

/-- An admitted host read: the value is returned; only a read of S_PIN or E_PIN draws (20_memory.md R32). -/
def State.hostRead (s : State) (r : Reg) : State :=
  match r with
  | .sPin => { s.afterDraw with readData := some (regValue s s.drawnLevels .sPin) }
  | .ePin => { s.afterDraw with readData := some (regValue s s.drawnLevels .ePin) }
  | r => { s with readData := some (regValue s 0 r) }

/-- A host write of a port register: refused with HOST_WRITE_WHILE_BUSY while busy (20_memory.md R34), else `put`. -/
def State.hostPortWrite (s : State) (put : State → State) : State :=
  if s.busy then s.raise .hostWriteWhileBusy else put s

end Sys2Proof.Machine
end

