-- ==== Sys2Proof/Machine/Sequencer.lean ====
section
/-! DEFINITION. The sequencer: μ-operations, one μ-step of each, command acceptance and one atomic step of a command
(00_scope.md R8, 10_state.md R11, R12, 30_encoding.md R58). -/

namespace Sys2Proof.Machine

/-- The μ-operations. A byte step of a non-atomic CLEAR or POLL is a μ-operation of its own (20_memory.md R39). -/
inductive MicroOp where
  /-- `CFG(m)` (41_timer.md R63). -/
  | cfg (m : Prescale)
  /-- `STOP` (41_timer.md R65). -/
  | stop
  /-- `STOP` as the end of SMOVE's S2: the same μ-step decides S3 (44_stepper.md R101). -/
  | stopOrRepeat
  /-- `CLEAR` as the entry of WaitProg(d) (41_timer.md R73, R74). -/
  | clear (d : Nat)
  /-- The `k`-th byte step of a non-atomic CLEAR, in WaitProg(d) (41_timer.md R74). -/
  | clearByte (d k : Nat)
  /-- `POLL(d)` (41_timer.md R75). -/
  | poll
  /-- The `k`-th byte step of a non-atomic POLL, `last` marking the one that compares (41_timer.md R75). -/
  | pollByte (k : Nat) (last : Bool)
  /-- `ECONF` (43_quadrature.md R85). -/
  | econf
  /-- `ESAMPLE` (43_quadrature.md R88). -/
  | esample
  /-- `SDIR` (44_stepper.md R95). -/
  | sdir
  /-- `SPAT` (44_stepper.md R95). -/
  | spat
  /-- `SCLR` (44_stepper.md R95). -/
  | sclr
  /-- `MICRO` (44_stepper.md R99). -/
  | micro
  /-- `Done(code)` (10_state.md R12). -/
  | done (code : ResultCode)
  deriving DecidableEq, Repr

/-- Locals of which every one is 0: what a command's unused locals hold (log 14). -/
def noLocals : Locals := { d := 0, v := 0, p := 0, it := 0, lim := 0, m := 0, n := 0, dir := 0 }

/-- `ECONF`'s effect on port E: the two encoder lines become inputs with pull-ups (43_quadrature.md R85). -/
def State.encoderConfigure (s : State) : State :=
  { s with portE := { s.portE with
      ddr := s.portE.ddr &&& ~~~ encMask s.cfg
      pue := s.portE.pue ||| encMask s.cfg } }

/-- The sample ESAMPLE takes (43_quadrature.md R88, 10_state.md R21, R23). -/
def State.sample (s : State) : BitVec 2 := encoderSample s.cfg (pinLevels s.portE s.drawnLevels)

/-- `ESAMPLE`'s effect on the decoder (43_quadrature.md R88). -/
def State.encoderRead (s : State) : State :=
  { s.afterDraw with edelta := quadrature s.prev s.sample, prev := s.sample }

/-- `S_DDR <- S_DDR OR STEP_MASK` (44_stepper.md R95). -/
def State.stepperOutputs (s : State) : State :=
  { s with portS := { s.portS with ddr := s.portS.ddr ||| stepMask s.cfg.stepShift } }

/-- `S_OUT <- Merge(S_OUT, q)` (44_stepper.md R93). -/
def State.stepperDrive (s : State) (q : BitVec 4) : State :=
  { s with portS := { s.portS with out := merge s.cfg.stepShift s.portS.out q } }

/-- `MICRO`'s port write: the advanced phase bit, unless the direction is invalid and INVALID_DIR_WRITES = false
(44_stepper.md R99). -/
def State.microDrive (s : State) (dir p : BitVec 4) : State :=
  if validDirection dir || s.cfg.invalidDirWrites then s.stepperDrive p else s

/-- Where POLL goes from its last μ-step at index `i`, with its first byte step at `first`: on when `v ≥ d`, unsigned,
else back (41_timer.md R75). -/
def pollTarget (L : Locals) (v : Word) (first i : Nat) : Nat :=
  if L.d ≤ v.toNat then i + 1 else first

/-- One μ-step: the μ-operation at index `i` of the μ-program of `c`, with locals `L` (00_scope.md R8). -/
def microStep (op : MicroOp) (c : Instr) (i : Nat) (L : Locals) (s : State) : State :=
  match op with
  | .cfg m => (s.timerConfigure m).goto c (i + 1) L
  | .stop => s.timerStop.goto c (i + 1) L
  | .stopOrRepeat => s.timerStop.goto c (if L.it < L.lim then 0 else i + 1) L
  | .clear d => { s with ticks := 0 }.goto c (i + 1) { L with d := d }
  | .clearByte d k => { s with ticks := setByte s.ticks k 0 }.goto c (i + 1) { L with d := d }
  | .poll => s.goto c (pollTarget L s.tickValue i i) { L with v := s.tickValue }
  | .pollByte k last =>
    let v := setByte L.v k (byteOf s.tickValue k)
    s.goto c (if last then pollTarget L v (i - k) i else i + 1) { L with v := v }
  | .econf => s.encoderConfigure.goto c (i + 1) L
  | .esample => s.encoderRead.goto c (i + 1) L
  | .sdir => s.stepperOutputs.goto c (i + 1) L
  | .spat => (s.stepperDrive s.cfg.stepInitPattern).goto c (i + 1) L
  | .sclr => (s.stepperDrive 0).goto c (i + 1) L
  | .micro =>
    let p := advance L.p L.dir
    let s' := s.microDrive L.dir p
    if L.m + 1 < Config.microPerStep then s'.goto c i { L with p := p, m := L.m + 1 }
    else s'.goto c (i + 1) { L with p := p, m := 0, it := L.it + 1 }
  | .done code => s.finish code

/-- `Accept` from the strict check on: a rejected command writes its code to RESULT and nothing else, any other makes
SEQ run it from index 0 (30_encoding.md R56, R58). -/
def accept (c : Instr) (reject : Option ResultCode) (L : Locals) (s : State) : State :=
  match reject with
  | some code => { s with result := code }
  | none => s.goto c 0 L

/-- One atomic step of command `c` (log 9): its acceptance where SEQ is Idle; the μ-operation at SEQ's index where SEQ
runs `c`; CMD_WHILE_BUSY where SEQ runs another command (20_memory.md R34). -/
def commandStep (c : Instr) (reject : Option ResultCode) (prog : List MicroOp) (L : Locals) (s : State) :
    Host.Outcome State Fault Refusal :=
  match s.seq with
  | .idle => .next (accept c reject L s)
  | .run c' i M =>
    if c' = c then
      match prog[i]? with
      | some op => .next (microStep op c i M s)
      | none => .fault .seqOutsideProgram
    else .next (s.raise .cmdWhileBusy)

end Sys2Proof.Machine
end

