-- ==== Sys2Proof/Machine/Quadrature.lean ====
section
/-! DEFINITION. The quadrature decoder's commands EINIT and EREAD (43_quadrature.md R85 to R92). -/

namespace Sys2Proof.Machine

/-- EINIT's μ-program (43_quadrature.md R86). -/
def progEinit : List MicroOp := [.econf, .done .ok]

/-- EINIT, `init_encoder()` (43_quadrature.md R86). -/
def execEinit (s : State) : Host.Outcome State Fault Refusal :=
  commandStep .einit none progEinit noLocals s

/-- EREAD's μ-program (43_quadrature.md R89). -/
def progEread : List MicroOp := [.esample, .done .ok]

/-- EREAD, `read_encoder()` (43_quadrature.md R89). -/
def execEread (s : State) : Host.Outcome State Fault Refusal :=
  commandStep .eread none progEread noLocals s

end Sys2Proof.Machine
end

