-- ==== Sys2Proof/Machine/Timer.lean ====
section
/-! DEFINITION. The timer family: the μ-sub-program WaitProg and the commands TCFG, TSTOP and WAIT
(41_timer.md R63 to R82). -/

namespace Sys2Proof.Machine

/-- CLEAR: one μ-step, or one per byte, low byte first (41_timer.md R74). -/
def clearOps (p : Params) (d : Nat) : List MicroOp :=
  if p.tickAtomic then [.clear d] else (List.range p.tickW.bytes).map (.clearByte d)

/-- POLL: one μ-step, or one per byte, low byte first, the last one comparing (41_timer.md R75). -/
def pollOps (p : Params) : List MicroOp :=
  if p.tickAtomic then [.poll]
  else (List.range p.tickW.bytes).map fun k => .pollByte k (decide (k + 1 = p.tickW.bytes))

/-- `WaitProg(d)`: CLEAR, CFG(slow), POLL(d), then `last`, its STOP (41_timer.md R73). -/
def waitProg (p : Params) (d : Nat) (last : MicroOp) : List MicroOp :=
  clearOps p d ++ [.cfg Config.waitMode] ++ pollOps p ++ [last]

/-- TCFG's μ-program: `[CFG(m); Done(0)]`, or `[Done(0)]` for an invalid mode (41_timer.md R64). In strict mode an
invalid mode never runs. -/
def progTcfg (m : BitVec 4) : List MicroOp :=
  match modeOperand m with
  | some pre => [.cfg pre, .done .ok]
  | none => [.done .ok]

/-- Strict mode rejects an invalid timer mode with INV_MODE (30_encoding.md R56). -/
def rejectTcfg (p : Params) (m : BitVec 4) : Option ResultCode :=
  match p.seqMode, modeOperand m with
  | .strict, none => some .invMode
  | _, _ => none

/-- TCFG, `configure_tick_source(mode)` (41_timer.md R64). -/
def execTcfg (m : BitVec 4) (s : State) : Host.Outcome State Fault Refusal :=
  commandStep (.tcfg m) (rejectTcfg s.cfg m) (progTcfg m) noLocals s

/-- TSTOP's μ-program (41_timer.md R66). -/
def progTstop : List MicroOp := [.stop, .done .ok]

/-- TSTOP, `stop_tick_source()` (41_timer.md R66). -/
def execTstop (s : State) : Host.Outcome State Fault Refusal :=
  commandStep .tstop none progTstop noLocals s

/-- WAIT's μ-program: `[WaitProg(d); Done(0)]` (41_timer.md R76). -/
def progWait (p : Params) (d : Nat) : List MicroOp := waitProg p d .stop ++ [.done .ok]

/-- WAIT's locals: WaitProg(d) is entered at acceptance, so `d` is set (41_timer.md R73). -/
def localsWait (d : Nat) : Locals := { noLocals with d := d }

/-- WAIT, `wait(duration_ms)` (41_timer.md R76). -/
def execWait (d : Nat) (s : State) : Host.Outcome State Fault Refusal :=
  commandStep (.wait d) none (progWait s.cfg d) (localsWait d) s

end Sys2Proof.Machine
end

