-- ==== Sys2Proof/Machine/Stepper.lean ====
section
/-! DEFINITION. The stepper sequencer's commands SINIT and SMOVE (44_stepper.md R93 to R108). -/

namespace Sys2Proof.Machine

/-- SINIT's μ-program: `[SDIR; SPAT; WaitProg(SETTLE_MS); SCLR; Done(0)]` (44_stepper.md R97). -/
def progSinit (p : Params) : List MicroOp :=
  [.sdir, .spat] ++ waitProg p Config.settleMs .stop ++ [.sclr, .done .ok]

/-- SINIT, `init_stepper()` (44_stepper.md R97). -/
def execSinit (s : State) : Host.Outcome State Fault Refusal :=
  commandStep .sinit none (progSinit s.cfg) noLocals s

/-- SMOVE's μ-program: S1 MICRO at index 0, S2 WaitProg(PACE_MS), whose STOP decides S3, then Done(0)
(44_stepper.md R101). -/
def progSmove (p : Params) : List MicroOp :=
  [.micro] ++ waitProg p Config.paceMs .stopOrRepeat ++ [.done .ok]

/-- SMOVE's initial locals (44_stepper.md R101). -/
def localsSmove (p : Params) (dir : BitVec 4) (n : Nat) : Locals :=
  { noLocals with p := p.phaseInit, lim := iterationLimit p.seqMode n, n := n, dir := dir }

/-- Strict mode rejects an invalid direction with INV_DIR, then a zero count with INV_COUNT (30_encoding.md R56,
R57). -/
def rejectSmove (p : Params) (dir : BitVec 4) (n : Nat) : Option ResultCode :=
  match p.seqMode with
  | .compatible => none
  | .strict => if !validDirection dir then some .invDir else if n = 0 then some .invCount else none

/-- SMOVE, `move_by_steps(step_count, direction)` (44_stepper.md R101). -/
def execSmove (dir : BitVec 4) (n : Nat) (s : State) : Host.Outcome State Fault Refusal :=
  commandStep (.smove dir n) (rejectSmove s.cfg dir n) (progSmove s.cfg) (localsSmove s.cfg dir n) s

end Sys2Proof.Machine
end

