-- ==== Sys2Proof/Machine/Dispatch.lean ====
section
/-! DEFINITION. One arm per command: one atomic step of that command (30_encoding.md R59, log 9). -/

namespace Sys2Proof.Machine

def exec (i : Instr) (s : State) : Host.Outcome State Fault Refusal :=
  match i with
  | .tcfg m => Sys2Proof.Machine.execTcfg m s
  | .tstop => Sys2Proof.Machine.execTstop s
  | .wait d => Sys2Proof.Machine.execWait d s
  | .einit => Sys2Proof.Machine.execEinit s
  | .eread => Sys2Proof.Machine.execEread s
  | .sinit => Sys2Proof.Machine.execSinit s
  | .smove dir n => Sys2Proof.Machine.execSmove dir n s

end Sys2Proof.Machine
end

