-- ==== Sys2Proof/Machine/HostPort.lean ====
section
/-! DEFINITION. The agents' turns: a host access to the register window with command acceptance (20_memory.md R31 to
R36, 30_encoding.md R58, 60_exceptions.md R116), and a sequencer step (00_scope.md R8). -/

namespace Sys2Proof.Machine

/-- Acceptance of a command word while SEQ is Idle: an illegal word writes RESULT ← 4 and nothing else; a command is
checked and started (30_encoding.md R54, R58). -/
def acceptWord (w : Word) (s : State) : Host.Outcome State Fault Refusal :=
  match decode w with
  | .cmd i => exec i s
  | .illegal _ => .next { s with result := .illegalCmd }

/-- A host write of a mapped register: CMD (20_memory.md R34, R35), a read-only register (R33), or a port register,
whose bits 7:0 become `v[7:0]` (R36). DEDUCED: S_PIN and E_PIN are read-only registers here also while busy, and R34's port
registers are the six that R36 writes (log 28); R33 names their fault, not R31 (log 13). -/
def hostWrite (r : Reg) (v : Word) (s : State) : Host.Outcome State Fault Refusal :=
  match r with
  | .cmd => if s.busy then .next (s.raise .cmdWhileBusy) else acceptWord v s
  | .status | .tctrl | .ticks | .tcomp | .sPin | .ePin => .next (s.raise .roWrite)
  | .sDdr => .next (s.hostPortWrite fun t => { t with portS := { t.portS with ddr := v.setWidth 8 } })
  | .sOut => .next (s.hostPortWrite fun t => { t with portS := { t.portS with out := v.setWidth 8 } })
  | .sPue => .next (s.hostPortWrite fun t => { t with portS := { t.portS with pue := v.setWidth 8 } })
  | .eDdr => .next (s.hostPortWrite fun t => { t with portE := { t.portE with ddr := v.setWidth 8 } })
  | .eOut => .next (s.hostPortWrite fun t => { t with portE := { t.portE with out := v.setWidth 8 } })
  | .ePue => .next (s.hostPortWrite fun t => { t with portE := { t.portE with pue := v.setWidth 8 } })

/-- One host access, after `readData` is emptied (log 15). An access to no register raises BAD_ACCESS (20_memory.md
R31, log 13). -/
def hostAccess (a : HostAccess) (s : State) : Host.Outcome State Fault Refusal :=
  match a with
  | .read addr bytes =>
    match regOfAccess s.cfg addr bytes with
    | some r => .next (s.hostRead r)
    | none => .next (s.raise .badAccess)
  | .write addr bytes v =>
    match regOfAccess s.cfg addr bytes with
    | some r => hostWrite r v s
    | none => .next (s.raise .badAccess)

/-- A turn of SEQ: one μ-step of the running command; where SEQ is Idle it has no step and the turn passes (00_scope.md
R8, 10_state.md R11, log 7). -/
def sequencerTurn (s : State) : Host.Outcome State Fault Refusal :=
  match s.seq with
  | .idle => .next s
  | .run c _ _ => exec c s

/-- One turn of an agent: one atomic step (20_memory.md R38). -/
def agentTurn (e : Event) (s : State) : Host.Outcome State Fault Refusal :=
  match e with
  | .host a => hostAccess a { s with readData := none }
  | .seq => sequencerTurn s
  | .compareMatch => .next s.compareMatch
  | .isr => .next s.takeInterrupt

end Sys2Proof.Machine
end

