-- ==== Sys2Proof/Machine/Step.lean ====
section
/-! DEFINITION. One step of the block: the next agent makes its turn (10_state.md R9, 20_memory.md R38, R41). -/

namespace Sys2Proof.Machine

/-- One step: the turn is given out, and its agent makes one atomic step. -/
def step (s : State) : Host.Outcome State Fault Refusal := agentTurn s.nextEvent s.afterEvent

/-- `s` with the next turn a host write of the word to CMD while SEQ is Idle: the very next step accepts that word
(20_memory.md R35, 30_encoding.md R58, log 19). -/
def State.withFetchWord (s : State) (nbits w : Nat) : State :=
  { s with
    seq := .idle
    agenda := .host (.write s.cfg.blockBase 4 (BitVec.ofNat 32 (w % 2 ^ nbits))) :: s.agenda }

end Sys2Proof.Machine
end

