-- ==== Sys2Proof/Machine/Programs.lean ====
section
/-! DEFINITION. The summary table of the commands (30_encoding.md R59): each command's μ-program, initial locals and
strict-mode rejection, as its own meaning uses them. -/

namespace Sys2Proof.Machine

/-- `prog(c)` (30_encoding.md R58, R59). -/
def progOf (p : Params) : Instr → List MicroOp
  | .tcfg m => progTcfg m
  | .tstop => progTstop
  | .wait d => progWait p d
  | .einit => progEinit
  | .eread => progEread
  | .sinit => progSinit p
  | .smove _ _ => progSmove p

/-- `L0(c)` (30_encoding.md R58). -/
def localsOf (p : Params) : Instr → Locals
  | .tcfg _ => noLocals
  | .tstop => noLocals
  | .wait d => localsWait d
  | .einit => noLocals
  | .eread => noLocals
  | .sinit => noLocals
  | .smove dir n => localsSmove p dir n

/-- `Reject(c)` (30_encoding.md R56 to R58). -/
def rejectOf (p : Params) : Instr → Option ResultCode
  | .tcfg m => rejectTcfg p m
  | .tstop => none
  | .wait _ => none
  | .einit => none
  | .eread => none
  | .sinit => none
  | .smove dir n => rejectSmove p dir n

/-- The μ-operation SEQ executes next; none where SEQ is Idle (10_state.md R11). -/
def nextOp (s : State) : Option MicroOp :=
  match s.seq with
  | .idle => none
  | .run c i _ => (progOf s.cfg c)[i]?

end Sys2Proof.Machine
end

