-- ==== Sys2Proof/Safety.lean ====
section
/-! DEFINITION. What claims about runs are stated in: final states (10_state.md R26), the invariants of the block
(10_state.md R27, 41_timer.md R82, 44_stepper.md R98, R103), schedules, weak fairness and A_POLL (41_timer.md R80,
R81), and the reference schedule S_REF (95_test_vectors.md section 0). -/

namespace Sys2Proof.Machine

/-- A final state: SEQ is Idle and FAULTS is empty. The spec says only which states are not final, a faulted one (10_state.md
R26) and those of a WAIT that never ends (41_timer.md R79). DESIGN CHOICE: every other Idle state is final, also with the timer
running or a match pending (log 27). -/
def State.final (s : State) : Prop := s.seq = .idle ∧ s.faults.isEmpty = true

/-! ### Invariants -/

/-- TIE = 1 implies MODE ≠ 00 (10_state.md R27). -/
def State.tieImpliesRunning (s : State) : Prop := s.tctrl.tie = true → s.tctrl.mode ≠ .off

/-- TICKS has TICK_W bits (10_state.md R19). -/
def State.ticksInRange (s : State) : Prop := s.ticks.toNat < 2 ^ s.cfg.tickW.bits

/-- SEQ's index names a μ-operation of the running command's μ-program (10_state.md R11). -/
def State.sequencerInProgram (s : State) : Prop :=
  ∀ c i L, s.seq = .run c i L → i < (progOf s.cfg c).length

/-- The duration of the WaitProg a command contains (41_timer.md R76, 44_stepper.md R96, R101). -/
def waitDuration : Instr → Option Nat
  | .tcfg _ => none
  | .tstop => none
  | .wait d => some d
  | .einit => none
  | .eread => none
  | .sinit => some Config.settleMs
  | .smove _ _ => some Config.paceMs

/-- How many μ-steps CLEAR, and one POLL, take: one, or one per byte of TICKS (20_memory.md R39). -/
def accessSteps (p : Params) : Nat := if p.tickAtomic then 1 else p.tickW.bytes

/-- The index at which a command's WaitProg begins (41_timer.md R76, 44_stepper.md R97, R101). -/
def waitStart : Instr → Nat
  | .tcfg _ => 0
  | .tstop => 0
  | .wait _ => 0
  | .einit => 0
  | .eread => 0
  | .sinit => 2
  | .smove _ _ => 1

/-- The command runs a WaitProg in each of its iterations (44_stepper.md R101). -/
def repeatsWait : Instr → Bool
  | .tcfg _ => false
  | .tstop => false
  | .wait _ => false
  | .einit => false
  | .eread => false
  | .sinit => false
  | .smove _ _ => true

/-- The timer is as STOP leaves it (41_timer.md R65, R82). -/
def TimerControl.stopped (t : TimerControl) : Prop := t.mode = .off ∧ t.tie = false

/-- What holds where the next μ-operation of a command `c` that contains WaitProg(d) is `op`: at CFG and POLL the local `d` is
the duration; at POLL and STOP the timer runs, slow, with its interrupt enabled; at STOP the last value read is at least
`d`; after STOP the timer is stopped, up to Done, or in SMOVE up to the CFG of the next iteration (41_timer.md R73, R75,
R77, R82, 44_stepper.md R101). -/
def waitFacts (c : Instr) (d : Nat) (op : MicroOp) (L : Locals) (t : TimerControl) : Prop :=
  match op with
  | .cfg _ => L.d = d
  | .poll | .pollByte _ _ => L.d = d ∧ t.mode = .slow ∧ t.tie = true ∧ t.gie = true
  | .stop | .stopOrRepeat => d ≤ L.v.toNat ∧ t.mode = .slow ∧ t.tie = true ∧ t.gie = true
  | .sclr | .done _ => t.stopped
  | .micro => 0 < L.it → t.stopped
  | .clear _ | .clearByte _ _ => repeatsWait c = true → 1 < L.it → t.stopped
  | .econf | .esample | .sdir | .spat => True

/-- `waitFacts` holds wherever a command that contains a WaitProg is (41_timer.md R73, R82). -/
def State.waitOnTrack (s : State) : Prop :=
  ∀ c i L d op, s.seq = .run c i L → waitDuration c = some d → nextOp s = some op →
    waitFacts c d op L s.tctrl

/-- `k` micro-advances of a phase bit (44_stepper.md R103). -/
def advances (dir : BitVec 4) : Nat → BitVec 4 → BitVec 4
  | 0, p => p
  | k + 1, p => advance (advances dir k p) dir

/-- Where an SMOVE is (44_stepper.md R99 to R103): the operands and the limit stand in the locals; `5·it + m`
micro-advances have been made, the phase bit is PHASE_INIT after so many, and the stepper bits of S_OUT show it once
one has been written; the iteration count is below the limit at MICRO, and is the limit at Done. -/
def State.smoveOnTrack (s : State) : Prop :=
  ∀ dir n i L, s.seq = .run (.smove dir n) i L →
    L.dir = dir ∧ L.n = n ∧ L.lim = iterationLimit s.cfg.seqMode n ∧ L.m < Config.microPerStep ∧ L.it ≤ L.lim ∧
    L.p = advances dir (Config.microPerStep * L.it + L.m) s.cfg.phaseInit ∧
    (i = 0 → L.it < L.lim) ∧ (0 < i → L.m = 0 ∧ 0 < L.it) ∧
    (i + 1 = (progSmove s.cfg).length → L.it = L.lim) ∧
    ((validDirection dir = true ∨ s.cfg.invalidDirWrites = true) → 0 < Config.microPerStep * L.it + L.m →
      stepBits s.cfg.stepShift s.portS.out = L.p)

/-- Where an SINIT is (44_stepper.md R95, R98): after SDIR the four lines are outputs, after SPAT and through the settle
time they show STEP_INIT_PATTERN, and at Done they are 0. -/
def State.sinitOnTrack (s : State) : Prop :=
  ∀ i L, s.seq = .run .sinit i L →
    (0 < i → stepBits s.cfg.stepShift s.portS.ddr = 0b1111) ∧
    (1 < i → i + 1 < (progSinit s.cfg).length →
      stepBits s.cfg.stepShift s.portS.out = s.cfg.stepInitPattern) ∧
    (i + 1 = (progSinit s.cfg).length → stepBits s.cfg.stepShift s.portS.out = 0)

/-- A WAIT that can never end: its duration does not fit in TICK_W bits, and SEQ has not passed POLL
(41_timer.md R79). -/
def State.waitsForever (s : State) : Prop :=
  ∃ d i L, s.seq = .run (.wait d) i L ∧ 2 ^ s.cfg.tickW.bits ≤ d ∧ L.d = d ∧ L.v.toNat < 2 ^ s.cfg.tickW.bits ∧
    i ≤ 2 * accessSteps s.cfg

/-! ### Runs under a schedule -/

/-- The run in which exactly the listed turns are made, in order. -/
def runUnder (turns : List Event) (s : State) : Host.Outcome State Fault Refusal :=
  Host.Core.run Sys2Proof.core turns.length { s with agenda := turns }

/-- HOST writes a word to CMD (20_memory.md R35). -/
def writeCommand (s : State) (w : Word) : Event := .host (.write s.cfg.blockBase 4 w)

/-- SEQ, then one compare match and its interrupt: what S_REF puts after a POLL that does not end its loop
(95_test_vectors.md section 0). -/
def pollThenTick : List Event := [.seq, .compareMatch, .isr]

/-- S_REF's turns for an atomic WaitProg(d): CLEAR, CFG, d failing POLLs each followed by a tick, the last POLL, STOP
(95_test_vectors.md section 0). -/
def waitTurns (d : Nat) : List Event :=
  [.seq, .seq] ++ (List.replicate d pollThenTick).flatten ++ [.seq, .seq]

/-- S_REF's turns for one SMOVE iteration: five MICRO, then WaitProg(PACE_MS) (95_test_vectors.md section 0). -/
def iterationTurns : List Event := List.replicate Config.microPerStep .seq ++ waitTurns Config.paceMs

/-- The agent of a turn has an enabled step (10_state.md R9, 41_timer.md R70, R71); HOST always may step. -/
def turnEnabled (e : Event) (s : State) : Bool :=
  match e with
  | .host _ => true
  | .seq => s.busy
  | .compareMatch => matchEnabled s.tctrl
  | .isr => isrEnabled s.tctrl

/-- The state after `n` turns of an endless schedule, as long as no turn stops the machine. -/
def stateAfter (schedule : Nat → Event) (s : State) : Nat → Option State
  | 0 => some s
  | n + 1 =>
    match stateAfter schedule s n with
    | some t =>
      match agentTurn (schedule n) t with
      | .next u => some u
      | .fault _ => none
      | .refused _ => none
    | none => none

/-- Weak fairness of SEQ, MATCH and ISR: an agent enabled from some point on makes a turn after it; nothing is asked of
HOST (41_timer.md R80). -/
def WeaklyFair (schedule : Nat → Event) (s : State) : Prop :=
  ∀ e ∈ [Event.seq, Event.compareMatch, Event.isr], ∀ n,
    (∀ m, n ≤ m → ∃ t, stateAfter schedule s m = some t ∧ turnEnabled e t = true) → ∃ m, n ≤ m ∧ schedule m = e

/-- The μ-operation is a POLL or one of its byte steps. -/
def MicroOp.isPoll : MicroOp → Bool
  | .poll => true
  | .pollByte _ _ => true
  | .cfg _ | .stop | .stopOrRepeat | .clear _ | .clearByte _ _ | .econf | .esample | .sdir | .spat | .sclr | .micro
  | .done _ => false

/-- SEQ is inside a WaitProg (41_timer.md R73): its next μ-operation is one of W1 to W4. -/
def insideWait (s : State) : Bool :=
  match s.seq with
  | .idle => false
  | .run c _ _ =>
    match waitDuration c, nextOp s with
    | some _, some (.cfg _) => true
    | some _, some .stop => true
    | some _, some .stopOrRepeat => true
    | some _, some (.clear _) => true
    | some _, some (.clearByte _ _) => true
    | some _, some op => op.isPoll
    | _, _ => false

/-- A_POLL: while SEQ is inside a WaitProg, at most one ISR step occurs between two consecutive SEQ μ-steps
(41_timer.md R81). Optional and not adopted: a claim that uses it takes it as a premise (log 17). -/
def APoll (schedule : Nat → Event) (s : State) : Prop :=
  ∀ a b, a < b → schedule a = .isr → schedule b = .isr →
    (∀ n, a ≤ n → n ≤ b → ∃ t, stateAfter schedule s n = some t ∧ insideWait t = true) →
    (∃ t, stateAfter schedule s a = some t ∧ isrEnabled t.tctrl = true) →
    (∃ t, stateAfter schedule s b = some t ∧ isrEnabled t.tctrl = true) →
    ∃ n, a < n ∧ n < b ∧ schedule n = .seq

end Sys2Proof.Machine
end

