-- ==== Sys2Proof/Certificates/Slice0/Obligations.lean ====
section
/-! DEFINITION. The statements for the provers, from the numbered rules of spec/. A statement about `exec` says what one
atomic step of a command does: its acceptance, or the μ-operation at SEQ's index (30_encoding.md R58, 00_scope.md R8). -/

open Sys2Proof Sys2Proof.Machine

/-! ### Reset -/

/-- 10_state.md R28, 70_reset_and_hazards.md R126: every reset value the spec gives, for all parameters; TCOMP is a draw and
nothing is said of it. -/
def Obligations.ResetState : Prop :=
  ∀ p : Params,
    (State.resetWith p).cfg = p ∧ (State.resetWith p).seq = .idle ∧ (State.resetWith p).result = .ok ∧
    (State.resetWith p).edelta = .zero ∧ (State.resetWith p).prev = 0b11#2 ∧
    (State.resetWith p).tctrl = { mode := .off, tie := false, gie := false, pend := false } ∧
    (State.resetWith p).ticks = 0 ∧
    (State.resetWith p).portS = { ddr := 0x00, out := 0x00, pue := 0x00 } ∧
    (State.resetWith p).portE = { ddr := 0x00, out := 0x00, pue := 0x00 } ∧
    (∀ f, (State.resetWith p).faults.has f = false) ∧
    (statusWord (State.resetWith p)).toNat = (if p.seqMode = .strict then 0x1C0 else 0xC0)

/-- The invariants of this file hold at reset, for all parameters; the machine's reset takes the default parameters (logs 1,
2). -/
def Obligations.ResetMeetsInvariants : Prop :=
  core.reset = State.resetWith Params.default ∧
  ∀ p : Params,
    (State.resetWith p).tieImpliesRunning ∧ (State.resetWith p).ticksInRange ∧
    (State.resetWith p).sequencerInProgram ∧ (State.resetWith p).waitOnTrack ∧
    (State.resetWith p).smoveOnTrack ∧ (State.resetWith p).sinitOnTrack

/-- 70_reset_and_hazards.md R127 (derived by the spec): after reset no command runs, no interrupt is enabled and no MATCH
can occur; a turn given to one of them passes (the model's own: log 7). -/
def Obligations.ResetIsQuiet : Prop :=
  ∀ p : Params, ∀ t : State,
    t.tctrl = (State.resetWith p).tctrl → t.seq = (State.resetWith p).seq →
      turnEnabled .seq t = false ∧ turnEnabled .compareMatch t = false ∧ turnEnabled .isr t = false ∧
      agentTurn .seq t = .next t ∧ agentTurn .compareMatch t = .next t ∧ agentTurn .isr t = .next t

/-! ### Encoding -/

/-- 95_test_vectors.md section 2, words written out from 30_encoding.md R49 to R55. -/
def Obligations.DecodesWrittenOutWords : Prop :=
  decode 0b00000000000000000000000000010001 = .cmd (.tcfg 1) ∧
  decode 0b00000000000000000000000000000010 = .cmd .tstop ∧
  decode 0b00000000000000110000000000000011 = .cmd (.wait 3) ∧
  decode 0b00000000000000000000000000000100 = .cmd .einit ∧
  decode 0b00000000000000000000000000000101 = .cmd .eread ∧
  decode 0b00000000000000000000000000000110 = .cmd .sinit ∧
  decode 0b00000000000000010000000011110111 = .cmd (.smove 15#4 1)

/-- Decoding an encoded well-formed command gives it back, every operand at every value. -/
def Obligations.DecodeOfEncode : Prop :=
  ∀ i : Instr, i.wellFormed = true → decode (encode i) = .cmd i

/-- A word that decodes to a command is that command's word, and the command is well formed: no two words mean one command.
-/ def Obligations.EncodeOfDecode : Prop := ∀ (w : Word) (i : Instr), decode w = .cmd i → encode i = w ∧ i.wellFormed = true
/-- 30_encoding.md R54: exactly which words are illegal, and that accepting one while Idle writes RESULT ← 4 and changes
nothing else, so SEQ stays Idle, in both SEQ_MODE values. -/
def Obligations.IllegalWords : Prop :=
  (∀ w : Word, (∃ why, decode w = .illegal why) ↔
    ((opField w).toNat = 0 ∨ 8 ≤ (opField w).toNat ∨ rsvField w ≠ 0#8 ∨
      (subField w ≠ 0#4 ∧ (opField w).toNat ∈ [2, 3, 4, 5, 6]) ∨
      (immField w ≠ 0#16 ∧ (opField w).toNat ∈ [1, 2, 4, 5, 6]))) ∧
  (∀ (s : State) (w : Word) (why : IllegalCmd), s.seq = .idle → decode w = .illegal why →
    acceptWord w s = .next { s with result := .illegalCmd } ∧ (resultCode .illegalCmd).toNat = 4)

/-! ### A step runs the decoded command -/

/-- 20_memory.md R35, 30_encoding.md R58: while SEQ is Idle a host write of CMD is acceptance of its word in one atomic
step, and where the word decodes to a command that is one atomic step of the command's meaning. The model's own part: the
step takes the turn out of `agenda` and empties `readData` (logs 6, 9, 15). -/
def Obligations.CommandWriteRunsCommand : Prop :=
  ∀ (s : State) (w : Word) (rest : List Event), s.seq = .idle → s.agenda = writeCommand s w :: rest →
    step s = acceptWord w { s with agenda := rest, readData := none } ∧
    ∀ i, decode w = .cmd i → step s = exec i { s with agenda := rest, readData := none }

/-- 00_scope.md R8, 10_state.md R11: a turn of SEQ is one atomic step of the running command's meaning; while Idle SEQ has
no step, and the turn passes (the model's own: logs 6, 7, 9). -/
def Obligations.SequencerTurnRunsCommand : Prop :=
  ∀ (s : State) (rest : List Event), s.agenda = .seq :: rest →
    (∀ c i L, s.seq = .run c i L → step s = exec c { s with agenda := rest }) ∧
    (s.seq = .idle → step s = .next { s with agenda := rest })

/-! ### Acceptance -/

/-- 30_encoding.md R58: an accepted command makes SEQ run it from index 0 with its initial locals (those no rule gives a
value are 0: log 14) and changes nothing else. -/
def Obligations.AcceptanceStartsCommand : Prop :=
  ∀ (c : Instr) (s : State), s.seq = .idle → rejectOf s.cfg c = none →
    ∃ t, exec c s = .next t ∧ t = { s with seq := .run c 0 (localsOf s.cfg c) } ∧ t.busy = true

/-- 30_encoding.md R56: strict mode rejects the three kinds of operand with their code and runs nothing; compatible mode
rejects nothing. -/
def Obligations.StrictValidation : Prop :=
  (∀ (s : State) (m : BitVec 4), s.seq = .idle → s.cfg.seqMode = .strict → m ≠ 0#4 → m ≠ 1#4 →
    exec (.tcfg m) s = .next { s with result := .invMode }) ∧
  (∀ (s : State) (dir : BitVec 4) (n : Nat), s.seq = .idle → s.cfg.seqMode = .strict → dir ≠ 1#4 → dir ≠ 15#4 →
    exec (.smove dir n) s = .next { s with result := .invDir }) ∧
  (∀ (s : State) (dir : BitVec 4), s.seq = .idle → s.cfg.seqMode = .strict → (dir = 1#4 ∨ dir = 15#4) →
    exec (.smove dir 0) s = .next { s with result := .invCount }) ∧
  (∀ (s : State) (c : Instr), s.seq = .idle → s.cfg.seqMode = .compatible →
    exec c s = .next { s with seq := .run c 0 (localsOf s.cfg c) }) ∧
  (resultCode .invMode).toNat = 1 ∧ (resultCode .invDir).toNat = 2 ∧ (resultCode .invCount).toNat = 3

/-- 44_stepper.md R100, R101: an SMOVE that runs starts with PHASE_INIT, no iteration and no micro-advance made, the limit n
+ 1 in compatible mode and n in strict mode, and its limit is at least 1. -/
def Obligations.SmoveStartsAtPhaseInit : Prop :=
  ∀ (s : State) (dir : BitVec 4) (n : Nat), s.seq = .idle →
    (s.cfg.seqMode = .compatible ∨ ((dir = 1#4 ∨ dir = 15#4) ∧ 0 < n)) →
    ∃ L, exec (.smove dir n) s = .next { s with seq := .run (.smove dir n) 0 L } ∧
      L.p = s.cfg.phaseInit ∧ L.m = 0 ∧ L.it = 0 ∧ L.dir = dir ∧ L.n = n ∧ 1 ≤ L.lim ∧
      (s.cfg.seqMode = .compatible → L.lim = n + 1) ∧ (s.cfg.seqMode = .strict → L.lim = n)

/-! ### Every command's Done -/

/-- 10_state.md R12: Done is the last μ-operation of every μ-program, and in one μ-step writes RESULT and makes SEQ Idle. -/
def Obligations.DoneEndsCommand : Prop :=
  ∀ (c : Instr) (s : State) (L : Locals), s.seq = .run c ((progOf s.cfg c).length - 1) L →
    nextOp s = some (.done .ok) ∧ exec c s = .next { s with result := .ok, seq := .idle }

/-! ### Timer -/

/-- 41_timer.md R63: TCFG with a valid mode programs MODE, TCOMP, TIE and GIE in one μ-step; TICKS, PEND and everything else
stay. -/
def Obligations.TcfgConfiguresTimer : Prop :=
  ∀ (s : State) (m : BitVec 4) (L : Locals), s.seq = .run (.tcfg m) 0 L → (m = 0#4 ∨ m = 1#4) →
    exec (.tcfg m) s = .next { s with
      tctrl := { mode := if m = 0#4 then .slow else .fast, tie := true, gie := true, pend := s.tctrl.pend }
      tcomp := if m = 0#4 then Config.ocrSlow else Config.ocrFast
      seq := .run (.tcfg m) 1 L }

/-- 41_timer.md R64: in compatible mode a TCFG with an invalid mode is accepted and ends with RESULT = 0, and changes
nothing else. -/
def Obligations.TcfgInvalidModeIsNoOp : Prop :=
  ∀ (s : State) (m : BitVec 4), s.seq = .idle → s.cfg.seqMode = .compatible → m ≠ 0#4 → m ≠ 1#4 →
    ∃ t, exec (.tcfg m) s = .next t ∧ exec (.tcfg m) t = .next { s with result := .ok }

/-- 41_timer.md R65: TSTOP clears TIE and MODE in one μ-step; GIE, PEND, TCOMP, TICKS and everything else stay. -/
def Obligations.TstopStopsTimer : Prop :=
  ∀ (s : State) (L : Locals), s.seq = .run .tstop 0 L →
    exec .tstop s = .next { s with
      tctrl := { mode := .off, tie := false, gie := s.tctrl.gie, pend := s.tctrl.pend }
      seq := .run .tstop 1 L }

/-- 41_timer.md R67 (derived by the spec): two TSTOPs in a row leave the state one leaves; the turns and the emptied
`agenda` and `readData` are the model's own (logs 6, 15). -/
def Obligations.TstopIsIdempotent : Prop :=
  ∀ (s : State), s.seq = .idle →
    ∃ t, runUnder [writeCommand s (encode .tstop), .seq, .seq] s = .next t ∧
      runUnder [writeCommand s (encode .tstop), .seq, .seq, writeCommand s (encode .tstop), .seq, .seq] s = .next t ∧
      t = { s with tctrl := { s.tctrl with mode := .off, tie := false }, result := .ok, agenda := [], readData := none }

/-- 41_timer.md R74: CLEAR, in each command that contains a WaitProg: one μ-step that writes all of TICKS to 0, or TICK_W/8
μ-steps of which the k-th writes byte k to 0; nothing else changes but SEQ, whose local `d` becomes the duration: that each
μ-step of CLEAR writes it is the model's choice (log 14; R73 says that it is set when WaitProg is entered). -/
def Obligations.WaitClearsTicks : Prop :=
  ∀ (s : State) (c : Instr) (d k : Nat) (L : Locals), waitDuration c = some d → k < accessSteps s.cfg →
    s.seq = .run c (waitStart c + k) L →
    ∃ v, exec c s = .next { s with ticks := v, seq := .run c (waitStart c + k + 1) { L with d := d } } ∧
      (s.cfg.tickAtomic = true → v = 0) ∧
      (s.cfg.tickAtomic = false → byteOf v k = 0 ∧ ∀ j, j < 4 → j ≠ k → byteOf v j = byteOf s.ticks j)

/-- 41_timer.md R73 (W2): after its CLEAR a WaitProg configures the timer slow. -/
def Obligations.WaitConfiguresSlow : Prop :=
  ∀ (s : State) (c : Instr) (d : Nat) (L : Locals), waitDuration c = some d →
    s.seq = .run c (waitStart c + accessSteps s.cfg) L →
    exec c s = .next { s with
      tctrl := { mode := .slow, tie := true, gie := true, pend := s.tctrl.pend }
      tcomp := Config.ocrSlow
      seq := .run c (waitStart c + accessSteps s.cfg + 1) L }

/-- 41_timer.md R75: POLL. Atomic: one μ-step reads all of TICKS and goes on iff it is at least `d`, unsigned. Not atomic:
the k-th byte step reads byte k into byte k of `v`, and the last one compares, going back to the first byte step. -/
def Obligations.WaitPolls : Prop :=
  ∀ (s : State) (c : Instr) (d k : Nat) (L : Locals), waitDuration c = some d → k < accessSteps s.cfg →
    s.seq = .run c (waitStart c + accessSteps s.cfg + 1 + k) L →
    ∃ (v : Word) (i : Nat), exec c s = .next { s with seq := .run c i { L with v := v } } ∧
      i = (if k + 1 < accessSteps s.cfg then waitStart c + accessSteps s.cfg + 1 + k + 1
           else if L.d ≤ v.toNat then waitStart c + 2 * accessSteps s.cfg + 1
           else waitStart c + accessSteps s.cfg + 1) ∧
      (s.cfg.tickAtomic = true → v.toNat = s.ticks.toNat % 2 ^ s.cfg.tickW.bits) ∧
      (s.cfg.tickAtomic = false → byteOf v k = byteOf s.ticks k ∧ ∀ j, j < 4 → j ≠ k → byteOf v j = byteOf L.v j)

/-- 41_timer.md R73 (W4), R65, 44_stepper.md R101 (S3): a WaitProg ends with STOP; in SMOVE the same μ-step decides between
another iteration and Done. -/
def Obligations.WaitStopsTimer : Prop :=
  ∀ (s : State) (c : Instr) (d : Nat) (L : Locals), waitDuration c = some d →
    s.seq = .run c (waitStart c + 2 * accessSteps s.cfg + 1) L →
    ∃ i, exec c s = .next { s with
        tctrl := { mode := .off, tie := false, gie := s.tctrl.gie, pend := s.tctrl.pend }
        seq := .run c i L } ∧
      ((∃ dir n, c = .smove dir n) → L.it < L.lim → i = 0) ∧
      ((∃ dir n, c = .smove dir n) → ¬ L.it < L.lim → i = (progOf s.cfg c).length - 1) ∧
      (¬ (∃ dir n, c = .smove dir n) → i = waitStart c + 2 * accessSteps s.cfg + 2)

/-- 41_timer.md R76 under S_REF: an atomic WAIT d with d < 2^TICK_W, from any Idle state, ends with TICKS = d, the timer
stopped, GIE set, TCOMP = OCR_SLOW and RESULT = 0, and nothing else changed; the turns and the emptied `agenda` and
`readData` are the model's own (logs 6, 15). -/
def Obligations.WaitUnderReferenceSchedule : Prop :=
  ∀ (s : State) (d : Nat), s.seq = .idle → s.cfg.tickAtomic = true → d < 2 ^ s.cfg.tickW.bits → d < 65536 →
    runUnder (writeCommand s (encode (.wait d)) :: waitTurns d ++ [.seq]) s = .next { s with
      ticks := BitVec.ofNat 32 d
      tctrl := { mode := .off, tie := false, gie := true, pend := if d = 0 then s.tctrl.pend else false }
      tcomp := Config.ocrSlow
      result := .ok
      agenda := []
      readData := none }

/-! ### The compare match and the interrupt -/

/-- 41_timer.md R70: MATCH sets PEND where MODE ≠ 00 and changes nothing else; where MODE = 00 it has no step, and the turn
passes (the model's own: logs 6, 7). -/
def Obligations.CompareMatchSetsPending : Prop :=
  ∀ (s : State) (rest : List Event), s.agenda = .compareMatch :: rest →
    (s.tctrl.mode ≠ .off →
      step s = .next { s with agenda := rest, tctrl := { s.tctrl with pend := true } }) ∧
    (s.tctrl.mode = .off → step s = .next { s with agenda := rest })

/-- 41_timer.md R71, R72, 60_exceptions.md R117: a pending, enabled interrupt clears PEND, counts TICKS modulo 2^TICK_W and
changes nothing else, whatever SEQ is; otherwise ISR has no step, and the turn passes (the model's own: logs 6, 7). -/
def Obligations.InterruptCountsTick : Prop :=
  ∀ (s : State) (rest : List Event), s.agenda = .isr :: rest →
    (s.tctrl.pend = true ∧ s.tctrl.tie = true ∧ s.tctrl.gie = true →
      ∃ v, step s = .next { s with agenda := rest, tctrl := { s.tctrl with pend := false }, ticks := v } ∧
        v.toNat = (s.ticks.toNat + 1) % 2 ^ s.cfg.tickW.bits) ∧
    (¬ (s.tctrl.pend = true ∧ s.tctrl.tie = true ∧ s.tctrl.gie = true) → step s = .next { s with agenda := rest })

/-! ### Quadrature decoder -/

/-- 43_quadrature.md R83: the whole table of Q. -/
def Obligations.QuadratureTable : Prop :=
  quadrature 0b11#2 0b10#2 = .plus ∧ quadrature 0b11#2 0b01#2 = .minus ∧
  ∀ prev s : BitVec 2, ¬ (prev = 0b11#2 ∧ s = 0b10#2) → ¬ (prev = 0b11#2 ∧ s = 0b01#2) → quadrature prev s = .zero

/-- 43_quadrature.md R85: EINIT makes the two encoder lines inputs with pull-ups; every other bit of E_DDR and E_PUE, E_OUT,
PREV and everything else stay. -/
def Obligations.EinitConfiguresLines : Prop :=
  ∀ (s : State) (L : Locals), s.seq = .run .einit 0 L →
    ∃ ddr pue, exec .einit s = .next { s with
        portE := { ddr := ddr, out := s.portE.out, pue := pue }, seq := .run .einit 1 L } ∧
      ∀ b, b < 8 →
        ddr.getLsbD b = (if b = s.cfg.encA.val ∨ b = s.cfg.encB.val then false else s.portE.ddr.getLsbD b) ∧
        pue.getLsbD b = (if b = s.cfg.encA.val ∨ b = s.cfg.encB.val then true else s.portE.pue.getLsbD b)

/-- 43_quadrature.md R88, 10_state.md R21: EREAD samples both lines in one μ-step, an output line from its latch and an
input line from the draw, decodes with Q, and stores the sample in PREV whatever the result; the draw is the model's `draws`
(log 8). -/
def Obligations.EreadSamplesAndDecodes : Prop :=
  ∀ (s : State) (L : Locals), s.seq = .run .eread 0 L →
    ∃ x, exec .eread s = .next { s.afterDraw with
        edelta := quadrature s.prev x, prev := x, seq := .run .eread 1 L } ∧
      x.getLsbD 1 = (if s.portE.ddr.getLsbD s.cfg.encA.val then s.portE.out.getLsbD s.cfg.encA.val
        else s.drawnLevels.getLsbD s.cfg.encA.val) ∧
      x.getLsbD 0 = (if s.portE.ddr.getLsbD s.cfg.encB.val then s.portE.out.getLsbD s.cfg.encB.val
        else s.drawnLevels.getLsbD s.cfg.encB.val) ∧
      deltaCode (quadrature s.prev x) =
        (if s.prev = 0b11#2 ∧ x = 0b10#2 then 0b01#2 else if s.prev = 0b11#2 ∧ x = 0b01#2 then 0b11#2 else 0b00#2)

/-- 43_quadrature.md R91 (derived by the spec): from a PREV that is not the detent, a whole EREAD reports 0 whatever the
lines, and RESULT = 0. -/
def Obligations.EreadOffDetentReportsZero : Prop :=
  ∀ (s : State), s.seq = .idle → s.prev ≠ 0b11#2 →
    ∃ t, runUnder [writeCommand s (encode .eread), .seq, .seq] s = .next t ∧
      t.edelta = .zero ∧ t.result = .ok ∧ t.seq = .idle

/-! ### Stepper -/

/-- 44_stepper.md R94: one micro-advance of any phase bits. +1 moves bit k to bit k+1 and bit 3 to bit 0, −1 moves bit k to
bit k−1 and bit 0 to bit 3, any other direction leaves them. -/
def Obligations.AdvanceRotates : Prop :=
  (∀ (p : BitVec 4) (k : Nat), k < 4 →
    (advance p 1#4).getLsbD k = p.getLsbD ((k + 3) % 4) ∧ (advance p 15#4).getLsbD k = p.getLsbD ((k + 1) % 4)) ∧
  (∀ p dir : BitVec 4, dir ≠ 1#4 → dir ≠ 15#4 → advance p dir = p) ∧
  (advance 0b0001 1#4 = 0b0010 ∧ advance 0b0010 1#4 = 0b0100 ∧ advance 0b0100 1#4 = 0b1000 ∧
    advance 0b1000 1#4 = 0b0001) ∧
  (advance 0b0001 15#4 = 0b1000 ∧ advance 0b0010 15#4 = 0b0001 ∧ advance 0b0100 15#4 = 0b0010 ∧
    advance 0b1000 15#4 = 0b0100)

/-- 44_stepper.md R103, R104 (derived by the spec): four micro-advances either way are none, so an iteration of five is one;
and the −1 sequence is the +1 sequence shifted the other way. -/
def Obligations.PhaseSequences : Prop :=
  ∀ (p : BitVec 4) (j : Nat),
    advances 1#4 (j + 4) p = advances 1#4 j p ∧ advances 15#4 (j + 4) p = advances 15#4 j p ∧
    advances 1#4 (5 * j) p = advances 1#4 (j % 4) p ∧ advances 15#4 (5 * j) p = advances 15#4 (j % 4) p ∧
    advances 15#4 j p = advances 1#4 (4 - j % 4) p

/-- 44_stepper.md R95: SINIT's SDIR, SPAT and SCLR, one μ-step each, with every other bit of S_DDR and S_OUT and everything
else kept. -/
def Obligations.SinitDrivesLines : Prop :=
  ∀ (s : State) (i : Nat) (L : Locals), s.seq = .run .sinit i L →
    (i = 0 → ∃ ddr, exec .sinit s = .next { s with
        portS := { s.portS with ddr := ddr }, seq := .run .sinit (i + 1) L } ∧
      ∀ b, b < 8 → ddr.getLsbD b =
        (if s.cfg.stepShift.val ≤ b ∧ b < s.cfg.stepShift.val + 4 then true else s.portS.ddr.getLsbD b)) ∧
    (i = 1 ∨ i = 2 * accessSteps s.cfg + 4 → ∃ out, exec .sinit s = .next { s with
        portS := { s.portS with out := out }, seq := .run .sinit (i + 1) L } ∧
      ∀ b, b < 8 → out.getLsbD b =
        (if s.cfg.stepShift.val ≤ b ∧ b < s.cfg.stepShift.val + 4 then
          (if i = 1 then s.cfg.stepInitPattern.getLsbD (b - s.cfg.stepShift.val) else false)
         else s.portS.out.getLsbD b))

/-- 44_stepper.md R96: SINIT's settle wait does in each μ-step what WAIT 2 does at the same place: the two next states
differ in SEQ alone, and SEQ's indices by where the WaitProg begins. -/
def Obligations.SinitSettlesAsWait : Prop :=
  ∀ (s : State) (k : Nat) (L : Locals), k < 2 * accessSteps s.cfg + 2 →
    ∃ (u : State) (j : Nat) (M : Locals),
      exec (.wait 2) { s with seq := .run (.wait 2) k L } = .next { u with seq := .run (.wait 2) j M } ∧
      exec .sinit { s with seq := .run .sinit (2 + k) L } = .next { u with seq := .run .sinit (2 + j) M }

/-- 44_stepper.md R98 (derived by the spec) under S_REF: an SINIT from any Idle state ends with the four lines outputs at 0,
every other bit of S_DDR and S_OUT and everything else but the timer as before, the timer stopped and TICKS = 2; the turns
and the emptied `agenda` and `readData` are the model's own (logs 6, 15). -/
def Obligations.SinitUnderReferenceSchedule : Prop :=
  ∀ (s : State), s.seq = .idle → s.cfg.tickAtomic = true →
    ∃ ddr out, runUnder (writeCommand s (encode .sinit) :: .seq :: .seq :: waitTurns 2 ++ [.seq, .seq]) s = .next { s with
        portS := { s.portS with ddr := ddr, out := out }
        ticks := 2
        tctrl := { mode := .off, tie := false, gie := true, pend := false }
        tcomp := Config.ocrSlow
        result := .ok
        agenda := []
        readData := none } ∧
      ∀ b, b < 8 →
        (s.cfg.stepShift.val ≤ b ∧ b < s.cfg.stepShift.val + 4 → ddr.getLsbD b = true ∧ out.getLsbD b = false) ∧
        (¬ (s.cfg.stepShift.val ≤ b ∧ b < s.cfg.stepShift.val + 4) →
          ddr.getLsbD b = s.portS.ddr.getLsbD b ∧ out.getLsbD b = s.portS.out.getLsbD b)

/-- 44_stepper.md R99: MICRO advances the phase bit, writes it (unless the direction is invalid and INVALID_DIR_WRITES is
false), counts, and goes on to the pacing wait after the fifth micro-advance. -/
def Obligations.SmoveMicroAdvances : Prop :=
  ∀ (s : State) (dir : BitVec 4) (n : Nat) (L : Locals), s.seq = .run (.smove dir n) 0 L →
    exec (.smove dir n) s = .next { s with
      portS := if L.dir = 1#4 ∨ L.dir = 15#4 ∨ s.cfg.invalidDirWrites = true
        then { s.portS with out := merge s.cfg.stepShift s.portS.out (advance L.p L.dir) } else s.portS
      seq := if L.m + 1 < 5 then .run (.smove dir n) 0 { L with p := advance L.p L.dir, m := L.m + 1 }
        else .run (.smove dir n) 1 { L with p := advance L.p L.dir, m := 0, it := L.it + 1 } }

/-- 44_stepper.md R101 to R105 (R102, R103 derived by the spec) under S_REF: an SMOVE that is not rejected makes `lim`
iterations, each of five micro-advances and a WaitProg(2), and ends with RESULT = 0, the stepper bits at the phase after
5·lim micro-advances (as before for an invalid direction that does not write), TICKS = 2 and the timer stopped, and nothing
else changed; the turns and the emptied `agenda` and `readData` are the model's own (logs 6, 15). -/
def Obligations.SmoveUnderReferenceSchedule : Prop :=
  ∀ (s : State) (dir : BitVec 4) (n lim : Nat), s.seq = .idle → s.cfg.tickAtomic = true → n < 65536 →
    rejectOf s.cfg (.smove dir n) = none → lim = iterationLimit s.cfg.seqMode n →
    runUnder (writeCommand s (encode (.smove dir n)) :: (List.replicate lim iterationTurns).flatten ++ [.seq]) s =
      .next { s with
        portS := if validDirection dir = true ∨ s.cfg.invalidDirWrites = true
          then { s.portS with out := merge s.cfg.stepShift s.portS.out (advances dir (5 * lim) s.cfg.phaseInit) }
          else s.portS
        ticks := 2
        tctrl := { mode := .off, tie := false, gie := true, pend := false }
        tcomp := Config.ocrSlow
        result := .ok
        agenda := []
        readData := none }

/-- 44_stepper.md R103 (derived by the spec): wherever an SMOVE with a valid direction reaches its Done, under any
interleaving, the stepper bits are PHASE_INIT rotated `lim mod 4` places, and Done leaves them. -/
def Obligations.SmoveEndsAtPhase : Prop :=
  ∀ (s : State) (dir : BitVec 4) (n : Nat) (L : Locals), s.smoveOnTrack → validDirection dir = true →
    s.seq = .run (.smove dir n) ((progOf s.cfg (.smove dir n)).length - 1) L →
    ∃ t, exec (.smove dir n) s = .next t ∧ t.seq = .idle ∧ t.result = .ok ∧
      stepBits t.cfg.stepShift t.portS.out =
        advances dir (iterationLimit s.cfg.seqMode n % 4) s.cfg.phaseInit

/-! ### Host accesses -/

/-- 20_memory.md R31: an access that is not 4 bytes wide, not aligned, outside the window or at an unmapped offset does
nothing but raise BAD_ACCESS. The turn in `agenda` and the emptied `readData` are the model's own (logs 6, 15). -/
def Obligations.BadAccessRaisesFault : Prop :=
  ∀ (s : State) (a : HostAccess) (addr bytes : Nat) (rest : List Event), s.agenda = .host a :: rest →
    (a = .read addr bytes ∨ ∃ v, a = .write addr bytes v) →
    (bytes ≠ 4 ∨ addr < s.cfg.blockBase ∨ (addr - s.cfg.blockBase) % 4 ≠ 0 ∨ s.cfg.blockBase + 0x3F < addr ∨
      (s.cfg.blockBase + 0x14 ≤ addr ∧ addr ≤ s.cfg.blockBase + 0x1F)) →
    step s = .next { s with agenda := rest, readData := none, faults := { s.faults with badAccess := true } }

/-- 20_memory.md R33: a write of STATUS, TCTRL, TICKS, TCOMP, S_PIN or E_PIN changes nothing and raises RO_WRITE (and not
BAD_ACCESS: log 13; also while busy, for S_PIN and E_PIN too: log 28). The turn in `agenda` and the emptied `readData` are
the model's own (logs 6, 15). -/
def Obligations.ReadOnlyWriteRaisesFault : Prop :=
  ∀ (s : State) (off : Nat) (v : Word) (rest : List Event), off ∈ [0x04, 0x08, 0x0C, 0x10, 0x2C, 0x3C] →
    s.agenda = .host (.write (s.cfg.blockBase + off) 4 v) :: rest →
    step s = .next { s with agenda := rest, readData := none, faults := { s.faults with roWrite := true } }

/-- 20_memory.md R34: while busy, a write of CMD raises CMD_WHILE_BUSY, a write of a port register raises
HOST_WRITE_WHILE_BUSY, and neither changes anything else. The turn in `agenda` and the emptied `readData` are the model's
own (logs 6, 15); a port register is one of the six that R36 writes (log 28). -/
def Obligations.BusyWritesRaiseFaults : Prop :=
  ∀ (s : State) (off : Nat) (v : Word) (rest : List Event), (∃ c i L, s.seq = .run c i L) →
    s.agenda = .host (.write (s.cfg.blockBase + off) 4 v) :: rest →
    (off = 0x00 →
      step s = .next { s with agenda := rest, readData := none, faults := { s.faults with cmdWhileBusy := true } }) ∧
    (off ∈ [0x20, 0x24, 0x28, 0x30, 0x34, 0x38] →
      step s = .next { s with
        agenda := rest, readData := none, faults := { s.faults with hostWriteWhileBusy := true } })

/-- 20_memory.md R36: while Idle, a write of a port register sets its eight bits to v[7:0] and changes nothing else. The
turn in `agenda` and the emptied `readData` are the model's own (logs 6, 15). -/
def Obligations.IdlePortWrites : Prop :=
  ∀ (s : State) (off : Nat) (v : Word) (b : Byte) (rest : List Event), s.seq = .idle → b = v.setWidth 8 →
    s.agenda = .host (.write (s.cfg.blockBase + off) 4 v) :: rest →
    (off = 0x20 → step s = .next { s with agenda := rest, readData := none, portS := { s.portS with ddr := b } }) ∧
    (off = 0x24 → step s = .next { s with agenda := rest, readData := none, portS := { s.portS with out := b } }) ∧
    (off = 0x28 → step s = .next { s with agenda := rest, readData := none, portS := { s.portS with pue := b } }) ∧
    (off = 0x30 → step s = .next { s with agenda := rest, readData := none, portE := { s.portE with ddr := b } }) ∧
    (off = 0x34 → step s = .next { s with agenda := rest, readData := none, portE := { s.portE with out := b } }) ∧
    (off = 0x38 → step s = .next { s with agenda := rest, readData := none, portE := { s.portE with pue := b } })

/-- 20_memory.md R30, R32, 10_state.md R13, R14, R17, R19, R20: an admitted read of a stored register returns its value, at
any time, with the codes of RESULT, EDELTA and MODE as the rules number them, and has no side effect; `agenda` and
`readData` are the model's own (logs 6, 15). -/
def Obligations.RegisterReads : Prop :=
  ∀ (s : State) (off : Nat) (rest : List Event), s.agenda = .host (.read (s.cfg.blockBase + off) 4) :: rest →
    off ∈ [0x00, 0x04, 0x08, 0x0C, 0x10, 0x20, 0x24, 0x28, 0x30, 0x34, 0x38] →
    ∃ w : Word, step s = .next { s with agenda := rest, readData := some w } ∧
      (off = 0x00 → w = 0) ∧
      (off = 0x04 → w.toNat = (if s.seq = .idle then 0 else 1) + 2 * (resultCode s.result).toNat +
        16 * (deltaCode s.edelta).toNat + 64 * s.prev.toNat + 256 * (if s.cfg.seqMode = .strict then 1 else 0) ∧
        (resultCode .ok = 0#3 ∧ resultCode .invMode = 1#3 ∧ resultCode .invDir = 2#3 ∧ resultCode .invCount = 3#3 ∧
          resultCode .illegalCmd = 4#3) ∧
        (deltaCode .zero = 0b00#2 ∧ deltaCode .plus = 0b01#2 ∧ deltaCode .minus = 0b11#2)) ∧
      (off = 0x08 → w.toNat = (modeCode s.tctrl.mode).toNat + 4 * s.tctrl.tie.toNat + 8 * s.tctrl.gie.toNat +
        16 * s.tctrl.pend.toNat ∧
        (modeCode .off = 0b00#2 ∧ modeCode .slow = 0b01#2 ∧ modeCode .fast = 0b10#2)) ∧
      (off = 0x0C → w.toNat = s.ticks.toNat % 2 ^ s.cfg.tickW.bits) ∧
      (off = 0x10 → w = s.tcomp) ∧
      (off = 0x20 → w.toNat = s.portS.ddr.toNat) ∧ (off = 0x24 → w.toNat = s.portS.out.toNat) ∧
      (off = 0x28 → w.toNat = s.portS.pue.toNat) ∧ (off = 0x30 → w.toNat = s.portE.ddr.toNat) ∧
      (off = 0x34 → w.toNat = s.portE.out.toNat) ∧ (off = 0x38 → w.toNat = s.portE.pue.toNat)

/-- 10_state.md R21, 20_memory.md R32: a read of S_PIN or E_PIN uses one draw and changes nothing else; each line reads its
latch if it is an output, else its bit of the draw, and bits 31:8 read 0; `draws`, `agenda` and `readData` are the model's
own (logs 6, 8, 15). -/
def Obligations.PinReads : Prop :=
  ∀ (s : State) (off : Nat) (x : Port) (rest : List Event),
    s.agenda = .host (.read (s.cfg.blockBase + off) 4) :: rest →
    (off = 0x2C ∧ x = s.portS ∨ off = 0x3C ∧ x = s.portE) →
    ∃ w : Word, step s = .next { s.afterDraw with agenda := rest, readData := some w } ∧
      ∀ b, w.getLsbD b =
        (decide (b < 8) && if x.ddr.getLsbD b then x.out.getLsbD b else s.drawnLevels.getLsbD b)

/-! ### Frames -/

/-- One atomic step of TCFG, TSTOP or WAIT leaves the ports, the decoder, PEND, the parameters and the model's own fields as
they are; GIE is never cleared; TCFG and TSTOP leave TICKS; RESULT changes only at acceptance and Done; FAULTS only where
another command runs. -/
def Obligations.TimerCommandsFrame : Prop :=
  ∀ (c : Instr) (s t : State), ((∃ m, c = .tcfg m) ∨ c = .tstop ∨ ∃ d, c = .wait d) → exec c s = .next t →
    t.portS = s.portS ∧ t.portE = s.portE ∧ t.prev = s.prev ∧ t.edelta = s.edelta ∧ t.tctrl.pend = s.tctrl.pend ∧
    t.cfg = s.cfg ∧ t.agenda = s.agenda ∧ t.draws = s.draws ∧ t.freeIx = s.freeIx ∧ t.readData = s.readData ∧
    (s.tctrl.gie = true → t.tctrl.gie = true) ∧
    ((∀ d, c ≠ .wait d) → t.ticks = s.ticks) ∧
    (c = .tstop → t.tcomp = s.tcomp ∧ t.tctrl.gie = s.tctrl.gie) ∧
    (t.result = s.result ∨ s.seq = .idle ∨ ∃ code, nextOp s = some (.done code)) ∧
    (t.faults = s.faults ∨ ∃ c' i L, s.seq = .run c' i L ∧ c' ≠ c ∧ t = s.raise .cmdWhileBusy)

/-- One atomic step of EINIT or EREAD leaves the timer, TICKS, port S, E_OUT, the parameters, the agenda and `readData`;
EINIT leaves PREV, EDELTA, the draws and the port E bits that are not encoder bits; EREAD leaves port E. -/
def Obligations.EncoderCommandsFrame : Prop :=
  ∀ (c : Instr) (s t : State), c = .einit ∨ c = .eread → exec c s = .next t →
    t.tctrl = s.tctrl ∧ t.tcomp = s.tcomp ∧ t.ticks = s.ticks ∧ t.portS = s.portS ∧ t.portE.out = s.portE.out ∧
    t.cfg = s.cfg ∧ t.agenda = s.agenda ∧ t.readData = s.readData ∧
    (c = .einit → t.prev = s.prev ∧ t.edelta = s.edelta ∧ t.draws = s.draws ∧ t.freeIx = s.freeIx ∧
      ∀ b, b < 8 → b ≠ s.cfg.encA.val → b ≠ s.cfg.encB.val →
        t.portE.ddr.getLsbD b = s.portE.ddr.getLsbD b ∧ t.portE.pue.getLsbD b = s.portE.pue.getLsbD b) ∧
    (c = .eread → t.portE = s.portE) ∧
    (t.result = s.result ∨ s.seq = .idle ∨ ∃ code, nextOp s = some (.done code)) ∧
    (t.faults = s.faults ∨ ∃ c' i L, s.seq = .run c' i L ∧ c' ≠ c ∧ t = s.raise .cmdWhileBusy)

/-- One atomic step of SINIT or SMOVE leaves port E, the decoder, PEND, S_PUE, the parameters, the model's own fields and
every bit of S_DDR and S_OUT that is not a stepper bit; GIE is never cleared; SMOVE does not write S_DDR (44_stepper.md
R107). -/
def Obligations.StepperCommandsFrame : Prop :=
  ∀ (c : Instr) (s t : State), (c = .sinit ∨ ∃ dir n, c = .smove dir n) → exec c s = .next t →
    t.portE = s.portE ∧ t.prev = s.prev ∧ t.edelta = s.edelta ∧ t.tctrl.pend = s.tctrl.pend ∧
    t.portS.pue = s.portS.pue ∧ t.cfg = s.cfg ∧ t.agenda = s.agenda ∧ t.draws = s.draws ∧ t.freeIx = s.freeIx ∧
    t.readData = s.readData ∧
    (∀ b, b < 8 → ¬ (s.cfg.stepShift.val ≤ b ∧ b < s.cfg.stepShift.val + 4) →
      t.portS.ddr.getLsbD b = s.portS.ddr.getLsbD b ∧ t.portS.out.getLsbD b = s.portS.out.getLsbD b) ∧
    (c ≠ .sinit → t.portS.ddr = s.portS.ddr) ∧
    (s.tctrl.gie = true → t.tctrl.gie = true) ∧
    (t.result = s.result ∨ s.seq = .idle ∨ ∃ code, nextOp s = some (.done code)) ∧
    (t.faults = s.faults ∨ ∃ c' i L, s.seq = .run c' i L ∧ c' ≠ c ∧ t = s.raise .cmdWhileBusy)

/-! ### Rules of the whole machine -/

/-- 00_scope.md R3: no step changes SEQ_MODE or any other parameter. -/
def Obligations.ParametersNeverChange : Prop :=
  ∀ s t : State, step s = .next t → t.cfg = s.cfg

/-- 10_state.md R26: a fault once in FAULTS stays, so a faulted state never becomes final; and only a host access adds one.
Which other states are final is the model's choice (log 27). -/
def Obligations.FaultsNeverCleared : Prop :=
  ∀ (s t : State), step s = .next t →
    (∀ f, s.faults.has f = true → t.faults.has f = true) ∧
    (s.faults.isEmpty = false → ¬ t.final) ∧
    (t.faults ≠ s.faults → ∃ a, s.nextEvent = .host a)

/-- 41_timer.md R69: no step clears GIE. -/
def Obligations.GieNeverCleared : Prop :=
  ∀ s t : State, step s = .next t → s.tctrl.gie = true → t.tctrl.gie = true

/-- 60_exceptions.md R113, 10_state.md R16: PEND is set only by MATCH while the timer runs, and cleared only by an enabled
ISR. -/
def Obligations.PendingWriters : Prop :=
  ∀ s t : State, step s = .next t →
    (s.tctrl.pend = false → t.tctrl.pend = true → s.nextEvent = .compareMatch ∧ s.tctrl.mode ≠ .off) ∧
    (s.tctrl.pend = true → t.tctrl.pend = false →
      s.nextEvent = .isr ∧ s.tctrl.tie = true ∧ s.tctrl.gie = true)

/-- 10_state.md R19: TICKS is written only by an enabled ISR, which counts it up by 1 modulo 2^TICK_W, and by a CLEAR
μ-operation of SEQ. -/
def Obligations.TicksWriters : Prop :=
  ∀ s t : State, step s = .next t → t.ticks ≠ s.ticks →
    (s.nextEvent = .isr ∧ isrEnabled s.tctrl = true ∧
      t.ticks.toNat = (s.ticks.toNat + 1) % 2 ^ s.cfg.tickW.bits) ∨
    (s.nextEvent = .seq ∧ ∃ d, nextOp s = some (.clear d) ∨ ∃ k, nextOp s = some (.clearByte d k))

/-- 10_state.md R24: PREV and EDELTA are written only by EREAD's ESAMPLE. -/
def Obligations.DecoderWriters : Prop :=
  ∀ s t : State, step s = .next t → (t.prev ≠ s.prev ∨ t.edelta ≠ s.edelta) →
    s.nextEvent = .seq ∧ ∃ L, s.seq = .run .eread 0 L

/-- 10_state.md R20: the block never writes a port bit it does not own: in every turn that is not a host access, S_PUE and
E_OUT stay, the other bits of S_DDR and S_OUT stay, and the other bits of E_DDR and E_PUE stay. -/
def Obligations.UnownedPortBitsKept : Prop :=
  ∀ s t : State, step s = .next t → (∀ a, s.nextEvent ≠ .host a) →
    t.portS.pue = s.portS.pue ∧ t.portE.out = s.portE.out ∧
    ∀ b, b < 8 →
      (¬ (s.cfg.stepShift.val ≤ b ∧ b < s.cfg.stepShift.val + 4) →
        t.portS.ddr.getLsbD b = s.portS.ddr.getLsbD b ∧ t.portS.out.getLsbD b = s.portS.out.getLsbD b) ∧
      (b ≠ s.cfg.encA.val → b ≠ s.cfg.encB.val →
        t.portE.ddr.getLsbD b = s.portE.ddr.getLsbD b ∧ t.portE.pue.getLsbD b = s.portE.pue.getLsbD b)

/-- 60_exceptions.md R109: no command traps, so wherever SEQ's index is inside the running μ-program every turn of SEQ
answers a next state; and so does every turn of another agent. Two parts are the model's choice, and not R109's: a turn of
an agent with no enabled step passes (log 7, DESIGN CHOICE), and a host access that raises a fault records it and the run
goes on (log 11, DEDUCED). The turns themselves are the model's own (log 6). -/
def Obligations.EveryTurnGoesOn : Prop :=
  ∀ s : State, s.sequencerInProgram → ∃ t, step s = .next t

/-! ### Invariants every step keeps -/

/-- 10_state.md R27 (derived by the spec): TIE = 1 implies MODE ≠ 00, at reset and after every step. -/
def Obligations.TieImpliesRunningInvariant : Prop :=
  (∀ p : Params, (State.resetWith p).tieImpliesRunning) ∧
  ∀ s t : State, s.tieImpliesRunning → step s = .next t → t.tieImpliesRunning

/-- 10_state.md R19: TICKS has TICK_W bits, after every step. -/
def Obligations.TicksRangeInvariant : Prop :=
  ∀ s t : State, s.ticksInRange → step s = .next t → t.ticksInRange

/-- 10_state.md R11: SEQ's index stays inside the running command's μ-program. -/
def Obligations.SequencerPositionInvariant : Prop :=
  ∀ s t : State, s.sequencerInProgram → step s = .next t → t.sequencerInProgram

/-- 41_timer.md R73, R77, R82 (the last two derived by the spec): every command that waits polls with the timer running slow
and its interrupt enabled, leaves POLL only once the value read is at least the duration, and after STOP keeps the timer
stopped, up to its Done, or in SMOVE up to the CFG of the next iteration, under every interleaving. -/
def Obligations.WaitTimerInvariant : Prop :=
  ∀ s t : State, s.waitOnTrack → step s = .next t → t.waitOnTrack

/-- 44_stepper.md R99 to R103: an SMOVE's phase bit is PHASE_INIT after as many micro-advances as its counters say, the
stepper bits show it, and Done comes after exactly `lim` iterations, under every interleaving. -/
def Obligations.SmovePhaseInvariant : Prop :=
  ∀ s t : State, s.smoveOnTrack → step s = .next t → t.smoveOnTrack

/-- 44_stepper.md R95, R98: an SINIT's lines are outputs after SDIR, show STEP_INIT_PATTERN through the settle time and are
0 at Done, under every interleaving. -/
def Obligations.SinitLinesInvariant : Prop :=
  ∀ s t : State, s.sinitOnTrack → step s = .next t → t.sinitOnTrack

/-- 41_timer.md R79 (derived by the spec): a WAIT with d ≥ 2^TICK_W, once accepted, never passes POLL: whatever turns are
made, by every agent and in any order, each step answers a next state in which it still waits, busy; such a state is never
final, as R79 says (which other states are final: log 27). -/
def Obligations.WaitTooLongNeverEnds : Prop :=
  (∀ (s : State) (d : Nat), s.seq = .idle → 2 ^ s.cfg.tickW.bits ≤ d →
    ∃ t, exec (.wait d) s = .next t ∧ t.waitsForever) ∧
  (∀ s : State, s.waitsForever → ∃ t, step s = .next t ∧ t.waitsForever ∧ t.busy = true ∧ ¬ t.final)
end

