-- ==== Sys2Proof/Laws/Bits.lean ====
section
/-! SUPPORT. The bit-level laws of the helpers on words, ports and patterns: what each bit of a merged latch, of a masked
register, of a byte, of a command word's field is. -/

namespace Sys2Proof

open Machine

/-! ### The command word's fields -/

@[simp] theorem opField_commandWord (op sub : BitVec 4) (imm : BitVec 16) :
    opField (commandWord op sub imm) = op := by
  ext b hb; simp only [opField, commandWord, BitVec.getElem_extractLsb', BitVec.getLsbD_append]
  simp [hb]

@[simp] theorem subField_commandWord (op sub : BitVec 4) (imm : BitVec 16) :
    subField (commandWord op sub imm) = sub := by
  ext b hb
  simp only [subField, commandWord, BitVec.getElem_extractLsb', BitVec.getLsbD_append]
  rw [if_neg (by omega), if_pos (by omega)]
  simp [hb]

@[simp] theorem rsvField_commandWord (op sub : BitVec 4) (imm : BitVec 16) :
    rsvField (commandWord op sub imm) = 0#8 := by
  ext b hb
  simp only [rsvField, commandWord, BitVec.getElem_extractLsb', BitVec.getLsbD_append]
  rw [if_neg (by omega), if_neg (by omega), if_pos (by omega)]
  simp

@[simp] theorem immField_commandWord (op sub : BitVec 4) (imm : BitVec 16) :
    immField (commandWord op sub imm) = imm := by
  ext b hb
  simp only [immField, commandWord, BitVec.getElem_extractLsb', BitVec.getLsbD_append]
  rw [if_neg (by omega), if_neg (by omega), if_neg (by omega)]
  simp [hb, show 16 + b - 4 - 4 - 8 = b by omega]

/-- A word with RSV = 0 is the command word of its fields (30_encoding.md R49). -/
theorem commandWord_fields (w : Word) (h : rsvField w = 0#8) :
    commandWord (opField w) (subField w) (immField w) = w := by
  ext b hb
  have h' : ∀ k, k < 8 → w.getLsbD (8 + k) = false := by
    intro k hk
    have := congrArg (fun v => BitVec.getLsbD v k) h
    simpa [rsvField, hk] using this
  simp only [commandWord, BitVec.getElem_eq_testBit_toNat, BitVec.testBit_toNat, BitVec.getLsbD_append]
  by_cases h1 : b < 4
  · simp [h1, opField]
  · by_cases h2 : b - 4 < 4
    · simp [h1, h2, subField, show 4 + (b - 4) = b by omega]
    · by_cases h3 : b - 4 - 4 < 8
      · simp only [if_neg h1, if_neg h2, if_pos h3]
        have := h' (b - 4 - 4) h3
        rw [show 8 + (b - 4 - 4) = b by omega] at this
        simp [this]
      · simp only [if_neg h1, if_neg h2, if_neg h3, immField]
        rw [BitVec.getLsbD_extractLsb', show 16 + (b - 4 - 4 - 8) = b by omega]
        simp [show b - 4 - 4 - 8 < 16 by omega]

/-! ### Bytes of a register -/

/-- Writing byte `k` writes that byte and no other (20_memory.md R37). -/
theorem byteOf_setByte (w : Word) (b : Byte) (k j : Nat) (hk : k < 4) (hj : j < 4) :
    byteOf (setByte w k b) j = if j = k then b else byteOf w j := by
  have hk' : k = 0 ∨ k = 1 ∨ k = 2 ∨ k = 3 := by omega
  have hj' : j = 0 ∨ j = 1 ∨ j = 2 ∨ j = 3 := by omega
  ext i hi
  simp only [byteOf, setByte, BitVec.getElem_extractLsb']
  rcases hk' with rfl | rfl | rfl | rfl <;> rcases hj' with rfl | rfl | rfl | rfl <;>
    simp [BitVec.getLsbD_setWidth, BitVec.getElem_extractLsb'] <;>
    have : i = 0 ∨ i = 1 ∨ i = 2 ∨ i = 3 ∨ i = 4 ∨ i = 5 ∨ i = 6 ∨ i = 7 := by omega
  all_goals rcases this with rfl | rfl | rfl | rfl | rfl | rfl | rfl | rfl <;> simp

/-! ### Ports and patterns -/

/-- STEP_MASK's bits (10_state.md R20). -/
theorem stepMask_bit (shift : Fin 5) (b : Nat) (hb : b < 8) :
    (stepMask shift).getLsbD b = decide (shift.val ≤ b ∧ b < shift.val + 4) := by
  revert b; revert shift; decide

/-- Merge replaces the stepper bits and keeps every other (44_stepper.md R93). -/
theorem merge_bit (shift : Fin 5) (o : Byte) (q : BitVec 4) (b : Nat) (hb : b < 8) :
    (merge shift o q).getLsbD b =
      if shift.val ≤ b ∧ b < shift.val + 4 then q.getLsbD (b - shift.val) else o.getLsbD b := by
  unfold merge
  rw [BitVec.getLsbD_or, BitVec.getLsbD_and, BitVec.getLsbD_not, stepMask_bit shift b hb,
    BitVec.getLsbD_shiftLeft, BitVec.getLsbD_setWidth]
  by_cases h1 : shift.val ≤ b
  · by_cases h2 : b < shift.val + 4
    · simp [h1, h2, hb, Nat.not_lt.mpr h1, show b - shift.val < 8 by omega]
    · simp [h1, h2, hb, BitVec.getLsbD_of_ge q _ (show 4 ≤ b - shift.val by omega)]
  · simp [h1, hb, Nat.lt_of_not_le h1]

/-- The phase register after a stepper write is the pattern (10_state.md R22, 44_stepper.md R93). -/
theorem stepBits_merge (shift : Fin 5) (o : Byte) (q : BitVec 4) : stepBits shift (merge shift o q) = q := by
  ext b hb
  have hs := shift.isLt
  rw [stepBits, BitVec.getElem_extractLsb', merge_bit _ _ _ _ (by omega), if_pos (by omega)]
  simp [hb]

/-- SDIR makes all four lines outputs (44_stepper.md R95). -/
theorem stepBits_or_mask (shift : Fin 5) (o : Byte) : stepBits shift (o ||| stepMask shift) = 0b1111 := by
  ext b hb
  have hs := shift.isLt
  rw [stepBits, BitVec.getElem_extractLsb', BitVec.getLsbD_or, stepMask_bit _ _ (by omega)]
  have : b = 0 ∨ b = 1 ∨ b = 2 ∨ b = 3 := by omega
  rcases this with rfl | rfl | rfl | rfl <;> simp

/-- Of two stepper writes the last one stands. -/
theorem merge_merge (shift : Fin 5) (o : Byte) (p q : BitVec 4) :
    merge shift (merge shift o p) q = merge shift o q := by
  ext b hb
  rw [BitVec.getElem_eq_testBit_toNat, BitVec.testBit_toNat, BitVec.getElem_eq_testBit_toNat, BitVec.testBit_toNat,
    merge_bit _ _ _ _ hb, merge_bit _ _ _ _ hb, merge_bit _ _ _ _ hb]
  split <;> rfl

/-- ENC_MASK's bits (10_state.md R20). -/
theorem encMask_bit (p : Params) (b : Nat) (hb : b < 8) :
    (encMask p).getLsbD b = decide (b = p.encA.val ∨ b = p.encB.val) := by
  have : ∀ (x y : Fin 8) (b : Fin 8), (((1 : Byte) <<< x.val) ||| ((1 : Byte) <<< y.val)).getLsbD b.val =
      decide (b.val = x.val ∨ b.val = y.val) := by decide
  exact this p.encA p.encB ⟨b, hb⟩

/-- The level of one line (10_state.md R21). -/
theorem pinLevels_bit (x : Port) (levels : Byte) (b : Nat) (hb : b < 8) :
    (pinLevels x levels).getLsbD b = if x.ddr.getLsbD b then x.out.getLsbD b else levels.getLsbD b := by
  unfold pinLevels
  rw [BitVec.getLsbD_or, BitVec.getLsbD_and, BitVec.getLsbD_and, BitVec.getLsbD_not]
  cases x.ddr.getLsbD b <;> simp [hb]


end Sys2Proof
end

