-- ==== Sys2Proof/Laws/State.lean ====
section
/-! SUPPORT. The small lemmas of every update of State, one per field: the field's new value, or that it is
unchanged. -/

namespace Sys2Proof.Machine

/-! #### `State.raise` -/

@[simp] theorem State.raise_cfg (s : State) (n : FaultName) : (s.raise n).cfg = s.cfg := rfl
@[simp] theorem State.raise_seq (s : State) (n : FaultName) : (s.raise n).seq = s.seq := rfl
@[simp] theorem State.raise_result (s : State) (n : FaultName) : (s.raise n).result = s.result := rfl
@[simp] theorem State.raise_edelta (s : State) (n : FaultName) : (s.raise n).edelta = s.edelta := rfl
@[simp] theorem State.raise_prev (s : State) (n : FaultName) : (s.raise n).prev = s.prev := rfl
@[simp] theorem State.raise_tctrl (s : State) (n : FaultName) : (s.raise n).tctrl = s.tctrl := rfl
@[simp] theorem State.raise_tcomp (s : State) (n : FaultName) : (s.raise n).tcomp = s.tcomp := rfl
@[simp] theorem State.raise_ticks (s : State) (n : FaultName) : (s.raise n).ticks = s.ticks := rfl
@[simp] theorem State.raise_portS (s : State) (n : FaultName) : (s.raise n).portS = s.portS := rfl
@[simp] theorem State.raise_portE (s : State) (n : FaultName) : (s.raise n).portE = s.portE := rfl
@[simp] theorem State.raise_faults (s : State) (n : FaultName) : (s.raise n).faults = addFault s.faults n := rfl
@[simp] theorem State.raise_agenda (s : State) (n : FaultName) : (s.raise n).agenda = s.agenda := rfl
@[simp] theorem State.raise_draws (s : State) (n : FaultName) : (s.raise n).draws = s.draws := rfl
@[simp] theorem State.raise_freeIx (s : State) (n : FaultName) : (s.raise n).freeIx = s.freeIx := rfl
@[simp] theorem State.raise_readData (s : State) (n : FaultName) : (s.raise n).readData = s.readData := rfl

/-! #### `State.goto` -/

@[simp] theorem State.goto_cfg (s : State) (c : Instr) (i : Nat) (L : Locals) : (s.goto c i L).cfg = s.cfg := rfl
@[simp] theorem State.goto_seq (s : State) (c : Instr) (i : Nat) (L : Locals) : (s.goto c i L).seq = .run c i L := rfl
@[simp] theorem State.goto_result (s : State) (c : Instr) (i : Nat) (L : Locals) :
    (s.goto c i L).result = s.result := rfl
@[simp] theorem State.goto_edelta (s : State) (c : Instr) (i : Nat) (L : Locals) :
    (s.goto c i L).edelta = s.edelta := rfl
@[simp] theorem State.goto_prev (s : State) (c : Instr) (i : Nat) (L : Locals) : (s.goto c i L).prev = s.prev := rfl
@[simp] theorem State.goto_tctrl (s : State) (c : Instr) (i : Nat) (L : Locals) : (s.goto c i L).tctrl = s.tctrl := rfl
@[simp] theorem State.goto_tcomp (s : State) (c : Instr) (i : Nat) (L : Locals) : (s.goto c i L).tcomp = s.tcomp := rfl
@[simp] theorem State.goto_ticks (s : State) (c : Instr) (i : Nat) (L : Locals) : (s.goto c i L).ticks = s.ticks := rfl
@[simp] theorem State.goto_portS (s : State) (c : Instr) (i : Nat) (L : Locals) : (s.goto c i L).portS = s.portS := rfl
@[simp] theorem State.goto_portE (s : State) (c : Instr) (i : Nat) (L : Locals) : (s.goto c i L).portE = s.portE := rfl
@[simp] theorem State.goto_faults (s : State) (c : Instr) (i : Nat) (L : Locals) :
    (s.goto c i L).faults = s.faults := rfl
@[simp] theorem State.goto_agenda (s : State) (c : Instr) (i : Nat) (L : Locals) :
    (s.goto c i L).agenda = s.agenda := rfl
@[simp] theorem State.goto_draws (s : State) (c : Instr) (i : Nat) (L : Locals) : (s.goto c i L).draws = s.draws := rfl
@[simp] theorem State.goto_freeIx (s : State) (c : Instr) (i : Nat) (L : Locals) :
    (s.goto c i L).freeIx = s.freeIx := rfl
@[simp] theorem State.goto_readData (s : State) (c : Instr) (i : Nat) (L : Locals) :
    (s.goto c i L).readData = s.readData := rfl

/-! #### `State.finish` -/

@[simp] theorem State.finish_cfg (s : State) (r : ResultCode) : (s.finish r).cfg = s.cfg := rfl
@[simp] theorem State.finish_seq (s : State) (r : ResultCode) : (s.finish r).seq = .idle := rfl
@[simp] theorem State.finish_result (s : State) (r : ResultCode) : (s.finish r).result = r := rfl
@[simp] theorem State.finish_edelta (s : State) (r : ResultCode) : (s.finish r).edelta = s.edelta := rfl
@[simp] theorem State.finish_prev (s : State) (r : ResultCode) : (s.finish r).prev = s.prev := rfl
@[simp] theorem State.finish_tctrl (s : State) (r : ResultCode) : (s.finish r).tctrl = s.tctrl := rfl
@[simp] theorem State.finish_tcomp (s : State) (r : ResultCode) : (s.finish r).tcomp = s.tcomp := rfl
@[simp] theorem State.finish_ticks (s : State) (r : ResultCode) : (s.finish r).ticks = s.ticks := rfl
@[simp] theorem State.finish_portS (s : State) (r : ResultCode) : (s.finish r).portS = s.portS := rfl
@[simp] theorem State.finish_portE (s : State) (r : ResultCode) : (s.finish r).portE = s.portE := rfl
@[simp] theorem State.finish_faults (s : State) (r : ResultCode) : (s.finish r).faults = s.faults := rfl
@[simp] theorem State.finish_agenda (s : State) (r : ResultCode) : (s.finish r).agenda = s.agenda := rfl
@[simp] theorem State.finish_draws (s : State) (r : ResultCode) : (s.finish r).draws = s.draws := rfl
@[simp] theorem State.finish_freeIx (s : State) (r : ResultCode) : (s.finish r).freeIx = s.freeIx := rfl
@[simp] theorem State.finish_readData (s : State) (r : ResultCode) : (s.finish r).readData = s.readData := rfl

/-! #### `State.timerConfigure` -/

@[simp] theorem State.timerConfigure_cfg (s : State) (m : Prescale) : (s.timerConfigure m).cfg = s.cfg := rfl
@[simp] theorem State.timerConfigure_seq (s : State) (m : Prescale) : (s.timerConfigure m).seq = s.seq := rfl
@[simp] theorem State.timerConfigure_result (s : State) (m : Prescale) : (s.timerConfigure m).result = s.result := rfl
@[simp] theorem State.timerConfigure_edelta (s : State) (m : Prescale) : (s.timerConfigure m).edelta = s.edelta := rfl
@[simp] theorem State.timerConfigure_prev (s : State) (m : Prescale) : (s.timerConfigure m).prev = s.prev := rfl
@[simp] theorem State.timerConfigure_tctrl (s : State) (m : Prescale) :
    (s.timerConfigure m).tctrl = { s.tctrl with mode := modeOfPrescale m, tie := true, gie := true } := rfl
@[simp] theorem State.timerConfigure_tcomp (s : State) (m : Prescale) :
    (s.timerConfigure m).tcomp = compareValue m := rfl
@[simp] theorem State.timerConfigure_ticks (s : State) (m : Prescale) : (s.timerConfigure m).ticks = s.ticks := rfl
@[simp] theorem State.timerConfigure_portS (s : State) (m : Prescale) : (s.timerConfigure m).portS = s.portS := rfl
@[simp] theorem State.timerConfigure_portE (s : State) (m : Prescale) : (s.timerConfigure m).portE = s.portE := rfl
@[simp] theorem State.timerConfigure_faults (s : State) (m : Prescale) : (s.timerConfigure m).faults = s.faults := rfl
@[simp] theorem State.timerConfigure_agenda (s : State) (m : Prescale) : (s.timerConfigure m).agenda = s.agenda := rfl
@[simp] theorem State.timerConfigure_draws (s : State) (m : Prescale) : (s.timerConfigure m).draws = s.draws := rfl
@[simp] theorem State.timerConfigure_freeIx (s : State) (m : Prescale) : (s.timerConfigure m).freeIx = s.freeIx := rfl
@[simp] theorem State.timerConfigure_readData (s : State) (m : Prescale) :
    (s.timerConfigure m).readData = s.readData := rfl

/-! #### `State.timerStop` -/

@[simp] theorem State.timerStop_cfg (s : State) : (s.timerStop).cfg = s.cfg := rfl
@[simp] theorem State.timerStop_seq (s : State) : (s.timerStop).seq = s.seq := rfl
@[simp] theorem State.timerStop_result (s : State) : (s.timerStop).result = s.result := rfl
@[simp] theorem State.timerStop_edelta (s : State) : (s.timerStop).edelta = s.edelta := rfl
@[simp] theorem State.timerStop_prev (s : State) : (s.timerStop).prev = s.prev := rfl
@[simp] theorem State.timerStop_tctrl (s : State) :
    (s.timerStop).tctrl = { s.tctrl with tie := false, mode := .off } := rfl
@[simp] theorem State.timerStop_tcomp (s : State) : (s.timerStop).tcomp = s.tcomp := rfl
@[simp] theorem State.timerStop_ticks (s : State) : (s.timerStop).ticks = s.ticks := rfl
@[simp] theorem State.timerStop_portS (s : State) : (s.timerStop).portS = s.portS := rfl
@[simp] theorem State.timerStop_portE (s : State) : (s.timerStop).portE = s.portE := rfl
@[simp] theorem State.timerStop_faults (s : State) : (s.timerStop).faults = s.faults := rfl
@[simp] theorem State.timerStop_agenda (s : State) : (s.timerStop).agenda = s.agenda := rfl
@[simp] theorem State.timerStop_draws (s : State) : (s.timerStop).draws = s.draws := rfl
@[simp] theorem State.timerStop_freeIx (s : State) : (s.timerStop).freeIx = s.freeIx := rfl
@[simp] theorem State.timerStop_readData (s : State) : (s.timerStop).readData = s.readData := rfl

/-! #### `State.compareMatch` -/

@[simp] theorem State.compareMatch_cfg (s : State) :
    (s.compareMatch).cfg = s.cfg := by unfold State.compareMatch; split <;> rfl
@[simp] theorem State.compareMatch_seq (s : State) :
    (s.compareMatch).seq = s.seq := by unfold State.compareMatch; split <;> rfl
@[simp] theorem State.compareMatch_result (s : State) :
    (s.compareMatch).result = s.result := by unfold State.compareMatch; split <;> rfl
@[simp] theorem State.compareMatch_edelta (s : State) :
    (s.compareMatch).edelta = s.edelta := by unfold State.compareMatch; split <;> rfl
@[simp] theorem State.compareMatch_prev (s : State) :
    (s.compareMatch).prev = s.prev := by unfold State.compareMatch; split <;> rfl
@[simp] theorem State.compareMatch_tcomp (s : State) :
    (s.compareMatch).tcomp = s.tcomp := by unfold State.compareMatch; split <;> rfl
@[simp] theorem State.compareMatch_ticks (s : State) :
    (s.compareMatch).ticks = s.ticks := by unfold State.compareMatch; split <;> rfl
@[simp] theorem State.compareMatch_portS (s : State) :
    (s.compareMatch).portS = s.portS := by unfold State.compareMatch; split <;> rfl
@[simp] theorem State.compareMatch_portE (s : State) :
    (s.compareMatch).portE = s.portE := by unfold State.compareMatch; split <;> rfl
@[simp] theorem State.compareMatch_faults (s : State) :
    (s.compareMatch).faults = s.faults := by unfold State.compareMatch; split <;> rfl
@[simp] theorem State.compareMatch_agenda (s : State) :
    (s.compareMatch).agenda = s.agenda := by unfold State.compareMatch; split <;> rfl
@[simp] theorem State.compareMatch_draws (s : State) :
    (s.compareMatch).draws = s.draws := by unfold State.compareMatch; split <;> rfl
@[simp] theorem State.compareMatch_freeIx (s : State) :
    (s.compareMatch).freeIx = s.freeIx := by unfold State.compareMatch; split <;> rfl
@[simp] theorem State.compareMatch_readData (s : State) :
    (s.compareMatch).readData = s.readData := by unfold State.compareMatch; split <;> rfl

/-! #### `State.takeInterrupt` -/

@[simp] theorem State.takeInterrupt_cfg (s : State) :
    (s.takeInterrupt).cfg = s.cfg := by unfold State.takeInterrupt; split <;> rfl
@[simp] theorem State.takeInterrupt_seq (s : State) :
    (s.takeInterrupt).seq = s.seq := by unfold State.takeInterrupt; split <;> rfl
@[simp] theorem State.takeInterrupt_result (s : State) :
    (s.takeInterrupt).result = s.result := by unfold State.takeInterrupt; split <;> rfl
@[simp] theorem State.takeInterrupt_edelta (s : State) :
    (s.takeInterrupt).edelta = s.edelta := by unfold State.takeInterrupt; split <;> rfl
@[simp] theorem State.takeInterrupt_prev (s : State) :
    (s.takeInterrupt).prev = s.prev := by unfold State.takeInterrupt; split <;> rfl
@[simp] theorem State.takeInterrupt_tcomp (s : State) :
    (s.takeInterrupt).tcomp = s.tcomp := by unfold State.takeInterrupt; split <;> rfl
@[simp] theorem State.takeInterrupt_portS (s : State) :
    (s.takeInterrupt).portS = s.portS := by unfold State.takeInterrupt; split <;> rfl
@[simp] theorem State.takeInterrupt_portE (s : State) :
    (s.takeInterrupt).portE = s.portE := by unfold State.takeInterrupt; split <;> rfl
@[simp] theorem State.takeInterrupt_faults (s : State) :
    (s.takeInterrupt).faults = s.faults := by unfold State.takeInterrupt; split <;> rfl
@[simp] theorem State.takeInterrupt_agenda (s : State) :
    (s.takeInterrupt).agenda = s.agenda := by unfold State.takeInterrupt; split <;> rfl
@[simp] theorem State.takeInterrupt_draws (s : State) :
    (s.takeInterrupt).draws = s.draws := by unfold State.takeInterrupt; split <;> rfl
@[simp] theorem State.takeInterrupt_freeIx (s : State) :
    (s.takeInterrupt).freeIx = s.freeIx := by unfold State.takeInterrupt; split <;> rfl
@[simp] theorem State.takeInterrupt_readData (s : State) :
    (s.takeInterrupt).readData = s.readData := by unfold State.takeInterrupt; split <;> rfl

/-! #### `State.afterDraw` -/

@[simp] theorem State.afterDraw_cfg (s : State) : (s.afterDraw).cfg = s.cfg := by unfold State.afterDraw; split <;> rfl
@[simp] theorem State.afterDraw_seq (s : State) : (s.afterDraw).seq = s.seq := by unfold State.afterDraw; split <;> rfl
@[simp] theorem State.afterDraw_result (s : State) :
    (s.afterDraw).result = s.result := by unfold State.afterDraw; split <;> rfl
@[simp] theorem State.afterDraw_edelta (s : State) :
    (s.afterDraw).edelta = s.edelta := by unfold State.afterDraw; split <;> rfl
@[simp] theorem State.afterDraw_prev (s : State) :
    (s.afterDraw).prev = s.prev := by unfold State.afterDraw; split <;> rfl
@[simp] theorem State.afterDraw_tctrl (s : State) :
    (s.afterDraw).tctrl = s.tctrl := by unfold State.afterDraw; split <;> rfl
@[simp] theorem State.afterDraw_tcomp (s : State) :
    (s.afterDraw).tcomp = s.tcomp := by unfold State.afterDraw; split <;> rfl
@[simp] theorem State.afterDraw_ticks (s : State) :
    (s.afterDraw).ticks = s.ticks := by unfold State.afterDraw; split <;> rfl
@[simp] theorem State.afterDraw_portS (s : State) :
    (s.afterDraw).portS = s.portS := by unfold State.afterDraw; split <;> rfl
@[simp] theorem State.afterDraw_portE (s : State) :
    (s.afterDraw).portE = s.portE := by unfold State.afterDraw; split <;> rfl
@[simp] theorem State.afterDraw_faults (s : State) :
    (s.afterDraw).faults = s.faults := by unfold State.afterDraw; split <;> rfl
@[simp] theorem State.afterDraw_agenda (s : State) :
    (s.afterDraw).agenda = s.agenda := by unfold State.afterDraw; split <;> rfl
@[simp] theorem State.afterDraw_readData (s : State) :
    (s.afterDraw).readData = s.readData := by unfold State.afterDraw; split <;> rfl

/-! #### `State.afterEvent` -/

@[simp] theorem State.afterEvent_cfg (s : State) :
    (s.afterEvent).cfg = s.cfg := by unfold State.afterEvent; split <;> rfl
@[simp] theorem State.afterEvent_seq (s : State) :
    (s.afterEvent).seq = s.seq := by unfold State.afterEvent; split <;> rfl
@[simp] theorem State.afterEvent_result (s : State) :
    (s.afterEvent).result = s.result := by unfold State.afterEvent; split <;> rfl
@[simp] theorem State.afterEvent_edelta (s : State) :
    (s.afterEvent).edelta = s.edelta := by unfold State.afterEvent; split <;> rfl
@[simp] theorem State.afterEvent_prev (s : State) :
    (s.afterEvent).prev = s.prev := by unfold State.afterEvent; split <;> rfl
@[simp] theorem State.afterEvent_tctrl (s : State) :
    (s.afterEvent).tctrl = s.tctrl := by unfold State.afterEvent; split <;> rfl
@[simp] theorem State.afterEvent_tcomp (s : State) :
    (s.afterEvent).tcomp = s.tcomp := by unfold State.afterEvent; split <;> rfl
@[simp] theorem State.afterEvent_ticks (s : State) :
    (s.afterEvent).ticks = s.ticks := by unfold State.afterEvent; split <;> rfl
@[simp] theorem State.afterEvent_portS (s : State) :
    (s.afterEvent).portS = s.portS := by unfold State.afterEvent; split <;> rfl
@[simp] theorem State.afterEvent_portE (s : State) :
    (s.afterEvent).portE = s.portE := by unfold State.afterEvent; split <;> rfl
@[simp] theorem State.afterEvent_faults (s : State) :
    (s.afterEvent).faults = s.faults := by unfold State.afterEvent; split <;> rfl
@[simp] theorem State.afterEvent_draws (s : State) :
    (s.afterEvent).draws = s.draws := by unfold State.afterEvent; split <;> rfl
@[simp] theorem State.afterEvent_readData (s : State) :
    (s.afterEvent).readData = s.readData := by unfold State.afterEvent; split <;> rfl

/-! #### `State.encoderConfigure` -/

@[simp] theorem State.encoderConfigure_cfg (s : State) : (s.encoderConfigure).cfg = s.cfg := rfl
@[simp] theorem State.encoderConfigure_seq (s : State) : (s.encoderConfigure).seq = s.seq := rfl
@[simp] theorem State.encoderConfigure_result (s : State) : (s.encoderConfigure).result = s.result := rfl
@[simp] theorem State.encoderConfigure_edelta (s : State) : (s.encoderConfigure).edelta = s.edelta := rfl
@[simp] theorem State.encoderConfigure_prev (s : State) : (s.encoderConfigure).prev = s.prev := rfl
@[simp] theorem State.encoderConfigure_tctrl (s : State) : (s.encoderConfigure).tctrl = s.tctrl := rfl
@[simp] theorem State.encoderConfigure_tcomp (s : State) : (s.encoderConfigure).tcomp = s.tcomp := rfl
@[simp] theorem State.encoderConfigure_ticks (s : State) : (s.encoderConfigure).ticks = s.ticks := rfl
@[simp] theorem State.encoderConfigure_portS (s : State) : (s.encoderConfigure).portS = s.portS := rfl
@[simp] theorem State.encoderConfigure_portE (s : State) :
    (s.encoderConfigure).portE =
      { s.portE with ddr := s.portE.ddr &&& ~~~ encMask s.cfg, pue := s.portE.pue ||| encMask s.cfg } := rfl
@[simp] theorem State.encoderConfigure_faults (s : State) : (s.encoderConfigure).faults = s.faults := rfl
@[simp] theorem State.encoderConfigure_agenda (s : State) : (s.encoderConfigure).agenda = s.agenda := rfl
@[simp] theorem State.encoderConfigure_draws (s : State) : (s.encoderConfigure).draws = s.draws := rfl
@[simp] theorem State.encoderConfigure_freeIx (s : State) : (s.encoderConfigure).freeIx = s.freeIx := rfl
@[simp] theorem State.encoderConfigure_readData (s : State) : (s.encoderConfigure).readData = s.readData := rfl

/-! #### `State.encoderRead` -/

@[simp] theorem State.encoderRead_cfg (s : State) : (s.encoderRead).cfg = s.cfg := by simp [State.encoderRead]
@[simp] theorem State.encoderRead_seq (s : State) : (s.encoderRead).seq = s.seq := by simp [State.encoderRead]
@[simp] theorem State.encoderRead_result (s : State) : (s.encoderRead).result = s.result := by simp [State.encoderRead]
@[simp] theorem State.encoderRead_edelta (s : State) : (s.encoderRead).edelta = quadrature s.prev s.sample := rfl
@[simp] theorem State.encoderRead_prev (s : State) : (s.encoderRead).prev = s.sample := rfl
@[simp] theorem State.encoderRead_tctrl (s : State) : (s.encoderRead).tctrl = s.tctrl := by simp [State.encoderRead]
@[simp] theorem State.encoderRead_tcomp (s : State) : (s.encoderRead).tcomp = s.tcomp := by simp [State.encoderRead]
@[simp] theorem State.encoderRead_ticks (s : State) : (s.encoderRead).ticks = s.ticks := by simp [State.encoderRead]
@[simp] theorem State.encoderRead_portS (s : State) : (s.encoderRead).portS = s.portS := by simp [State.encoderRead]
@[simp] theorem State.encoderRead_portE (s : State) : (s.encoderRead).portE = s.portE := by simp [State.encoderRead]
@[simp] theorem State.encoderRead_faults (s : State) : (s.encoderRead).faults = s.faults := by simp [State.encoderRead]
@[simp] theorem State.encoderRead_agenda (s : State) : (s.encoderRead).agenda = s.agenda := by simp [State.encoderRead]
@[simp] theorem State.encoderRead_draws (s : State) : (s.encoderRead).draws = s.afterDraw.draws := rfl
@[simp] theorem State.encoderRead_freeIx (s : State) : (s.encoderRead).freeIx = s.afterDraw.freeIx := rfl
@[simp] theorem State.encoderRead_readData (s : State) :
    (s.encoderRead).readData = s.readData := by simp [State.encoderRead]

/-! #### `State.stepperOutputs` -/

@[simp] theorem State.stepperOutputs_cfg (s : State) : (s.stepperOutputs).cfg = s.cfg := rfl
@[simp] theorem State.stepperOutputs_seq (s : State) : (s.stepperOutputs).seq = s.seq := rfl
@[simp] theorem State.stepperOutputs_result (s : State) : (s.stepperOutputs).result = s.result := rfl
@[simp] theorem State.stepperOutputs_edelta (s : State) : (s.stepperOutputs).edelta = s.edelta := rfl
@[simp] theorem State.stepperOutputs_prev (s : State) : (s.stepperOutputs).prev = s.prev := rfl
@[simp] theorem State.stepperOutputs_tctrl (s : State) : (s.stepperOutputs).tctrl = s.tctrl := rfl
@[simp] theorem State.stepperOutputs_tcomp (s : State) : (s.stepperOutputs).tcomp = s.tcomp := rfl
@[simp] theorem State.stepperOutputs_ticks (s : State) : (s.stepperOutputs).ticks = s.ticks := rfl
@[simp] theorem State.stepperOutputs_portS (s : State) :
    (s.stepperOutputs).portS = { s.portS with ddr := s.portS.ddr ||| stepMask s.cfg.stepShift } := rfl
@[simp] theorem State.stepperOutputs_portE (s : State) : (s.stepperOutputs).portE = s.portE := rfl
@[simp] theorem State.stepperOutputs_faults (s : State) : (s.stepperOutputs).faults = s.faults := rfl
@[simp] theorem State.stepperOutputs_agenda (s : State) : (s.stepperOutputs).agenda = s.agenda := rfl
@[simp] theorem State.stepperOutputs_draws (s : State) : (s.stepperOutputs).draws = s.draws := rfl
@[simp] theorem State.stepperOutputs_freeIx (s : State) : (s.stepperOutputs).freeIx = s.freeIx := rfl
@[simp] theorem State.stepperOutputs_readData (s : State) : (s.stepperOutputs).readData = s.readData := rfl

/-! #### `State.stepperDrive` -/

@[simp] theorem State.stepperDrive_cfg (s : State) (q : BitVec 4) : (s.stepperDrive q).cfg = s.cfg := rfl
@[simp] theorem State.stepperDrive_seq (s : State) (q : BitVec 4) : (s.stepperDrive q).seq = s.seq := rfl
@[simp] theorem State.stepperDrive_result (s : State) (q : BitVec 4) : (s.stepperDrive q).result = s.result := rfl
@[simp] theorem State.stepperDrive_edelta (s : State) (q : BitVec 4) : (s.stepperDrive q).edelta = s.edelta := rfl
@[simp] theorem State.stepperDrive_prev (s : State) (q : BitVec 4) : (s.stepperDrive q).prev = s.prev := rfl
@[simp] theorem State.stepperDrive_tctrl (s : State) (q : BitVec 4) : (s.stepperDrive q).tctrl = s.tctrl := rfl
@[simp] theorem State.stepperDrive_tcomp (s : State) (q : BitVec 4) : (s.stepperDrive q).tcomp = s.tcomp := rfl
@[simp] theorem State.stepperDrive_ticks (s : State) (q : BitVec 4) : (s.stepperDrive q).ticks = s.ticks := rfl
@[simp] theorem State.stepperDrive_portS (s : State) (q : BitVec 4) :
    (s.stepperDrive q).portS = { s.portS with out := merge s.cfg.stepShift s.portS.out q } := rfl
@[simp] theorem State.stepperDrive_portE (s : State) (q : BitVec 4) : (s.stepperDrive q).portE = s.portE := rfl
@[simp] theorem State.stepperDrive_faults (s : State) (q : BitVec 4) : (s.stepperDrive q).faults = s.faults := rfl
@[simp] theorem State.stepperDrive_agenda (s : State) (q : BitVec 4) : (s.stepperDrive q).agenda = s.agenda := rfl
@[simp] theorem State.stepperDrive_draws (s : State) (q : BitVec 4) : (s.stepperDrive q).draws = s.draws := rfl
@[simp] theorem State.stepperDrive_freeIx (s : State) (q : BitVec 4) : (s.stepperDrive q).freeIx = s.freeIx := rfl
@[simp] theorem State.stepperDrive_readData (s : State) (q : BitVec 4) : (s.stepperDrive q).readData = s.readData := rfl

/-! #### `State.microDrive` -/

@[simp] theorem State.microDrive_cfg (s : State) (dir p : BitVec 4) :
    (s.microDrive dir p).cfg = s.cfg := by unfold State.microDrive; split <;> rfl
@[simp] theorem State.microDrive_seq (s : State) (dir p : BitVec 4) :
    (s.microDrive dir p).seq = s.seq := by unfold State.microDrive; split <;> rfl
@[simp] theorem State.microDrive_result (s : State) (dir p : BitVec 4) :
    (s.microDrive dir p).result = s.result := by unfold State.microDrive; split <;> rfl
@[simp] theorem State.microDrive_edelta (s : State) (dir p : BitVec 4) :
    (s.microDrive dir p).edelta = s.edelta := by unfold State.microDrive; split <;> rfl
@[simp] theorem State.microDrive_prev (s : State) (dir p : BitVec 4) :
    (s.microDrive dir p).prev = s.prev := by unfold State.microDrive; split <;> rfl
@[simp] theorem State.microDrive_tctrl (s : State) (dir p : BitVec 4) :
    (s.microDrive dir p).tctrl = s.tctrl := by unfold State.microDrive; split <;> rfl
@[simp] theorem State.microDrive_tcomp (s : State) (dir p : BitVec 4) :
    (s.microDrive dir p).tcomp = s.tcomp := by unfold State.microDrive; split <;> rfl
@[simp] theorem State.microDrive_ticks (s : State) (dir p : BitVec 4) :
    (s.microDrive dir p).ticks = s.ticks := by unfold State.microDrive; split <;> rfl
@[simp] theorem State.microDrive_portE (s : State) (dir p : BitVec 4) :
    (s.microDrive dir p).portE = s.portE := by unfold State.microDrive; split <;> rfl
@[simp] theorem State.microDrive_faults (s : State) (dir p : BitVec 4) :
    (s.microDrive dir p).faults = s.faults := by unfold State.microDrive; split <;> rfl
@[simp] theorem State.microDrive_agenda (s : State) (dir p : BitVec 4) :
    (s.microDrive dir p).agenda = s.agenda := by unfold State.microDrive; split <;> rfl
@[simp] theorem State.microDrive_draws (s : State) (dir p : BitVec 4) :
    (s.microDrive dir p).draws = s.draws := by unfold State.microDrive; split <;> rfl
@[simp] theorem State.microDrive_freeIx (s : State) (dir p : BitVec 4) :
    (s.microDrive dir p).freeIx = s.freeIx := by unfold State.microDrive; split <;> rfl
@[simp] theorem State.microDrive_readData (s : State) (dir p : BitVec 4) :
    (s.microDrive dir p).readData = s.readData := by unfold State.microDrive; split <;> rfl

/-! #### `State.hostRead` -/

@[simp] theorem State.hostRead_cfg (s : State) (r : Reg) :
    (s.hostRead r).cfg = s.cfg := by cases r <;> simp [State.hostRead]
@[simp] theorem State.hostRead_seq (s : State) (r : Reg) :
    (s.hostRead r).seq = s.seq := by cases r <;> simp [State.hostRead]
@[simp] theorem State.hostRead_result (s : State) (r : Reg) :
    (s.hostRead r).result = s.result := by cases r <;> simp [State.hostRead]
@[simp] theorem State.hostRead_edelta (s : State) (r : Reg) :
    (s.hostRead r).edelta = s.edelta := by cases r <;> simp [State.hostRead]
@[simp] theorem State.hostRead_prev (s : State) (r : Reg) :
    (s.hostRead r).prev = s.prev := by cases r <;> simp [State.hostRead]
@[simp] theorem State.hostRead_tctrl (s : State) (r : Reg) :
    (s.hostRead r).tctrl = s.tctrl := by cases r <;> simp [State.hostRead]
@[simp] theorem State.hostRead_tcomp (s : State) (r : Reg) :
    (s.hostRead r).tcomp = s.tcomp := by cases r <;> simp [State.hostRead]
@[simp] theorem State.hostRead_ticks (s : State) (r : Reg) :
    (s.hostRead r).ticks = s.ticks := by cases r <;> simp [State.hostRead]
@[simp] theorem State.hostRead_portS (s : State) (r : Reg) :
    (s.hostRead r).portS = s.portS := by cases r <;> simp [State.hostRead]
@[simp] theorem State.hostRead_portE (s : State) (r : Reg) :
    (s.hostRead r).portE = s.portE := by cases r <;> simp [State.hostRead]
@[simp] theorem State.hostRead_faults (s : State) (r : Reg) :
    (s.hostRead r).faults = s.faults := by cases r <;> simp [State.hostRead]
@[simp] theorem State.hostRead_agenda (s : State) (r : Reg) :
    (s.hostRead r).agenda = s.agenda := by cases r <;> simp [State.hostRead]

end Sys2Proof.Machine
end

