-- ==== Sys2Proof/Laws/Ops.lean ====
section
/-! SUPPORT. What each shared operation can do, said once: one atomic step of a command, a host access, a sequencer
turn, a step of the block. -/

namespace Sys2Proof.Machine

open Host (Outcome)

/-! ### One atomic step of a command -/

/-- Every command's meaning is `commandStep` on its row of the summary table (30_encoding.md R59). -/
theorem exec_eq_commandStep (c : Instr) (s : State) :
    exec c s = commandStep c (rejectOf s.cfg c) (progOf s.cfg c) (localsOf s.cfg c) s := by
  cases c <;> rfl

/-- Acceptance (30_encoding.md R58). -/
theorem exec_idle {c : Instr} {s : State} (h : s.seq = .idle) :
    exec c s = .next (accept c (rejectOf s.cfg c) (localsOf s.cfg c) s) := by
  rw [exec_eq_commandStep, commandStep, h]

/-- A μ-step of the running command (00_scope.md R8). -/
theorem exec_running {c : Instr} {i : Nat} {L : Locals} {s : State} {op : MicroOp} (h : s.seq = .run c i L)
    (hop : (progOf s.cfg c)[i]? = some op) : exec c s = .next (microStep op c i L s) := by
  rw [exec_eq_commandStep, commandStep, h]; simp [hop]

/-- A command other than the running one (20_memory.md R34). -/
theorem exec_other {c c' : Instr} {i : Nat} {L : Locals} {s : State} (h : s.seq = .run c' i L) (hc : c' ≠ c) :
    exec c s = .next (s.raise .cmdWhileBusy) := by
  rw [exec_eq_commandStep, commandStep, h]; simp [hc]

/-- Everything one atomic step of a command can do when it answers a next state. -/
theorem exec_next {c : Instr} {s t : State} (h : exec c s = .next t) :
    (s.seq = .idle ∧ t = accept c (rejectOf s.cfg c) (localsOf s.cfg c) s) ∨
    (∃ i L op, s.seq = .run c i L ∧ (progOf s.cfg c)[i]? = some op ∧ t = microStep op c i L s) ∨
    (∃ c' i L, s.seq = .run c' i L ∧ c' ≠ c ∧ t = s.raise .cmdWhileBusy) := by
  cases hs : s.seq with
  | idle =>
    rw [exec_idle hs] at h
    exact .inl ⟨rfl, (Outcome.next.inj h).symm⟩
  | run c' i L =>
    by_cases hc : c' = c
    · subst hc
      cases hop : (progOf s.cfg c')[i]? with
      | some op =>
        rw [exec_running hs hop] at h
        exact .inr (.inl ⟨i, L, op, rfl, hop, (Outcome.next.inj h).symm⟩)
      | none =>
        rw [exec_eq_commandStep, commandStep, hs] at h
        simp [hop] at h
    · rw [exec_other hs hc] at h
      exact .inr (.inr ⟨c', i, L, rfl, hc, (Outcome.next.inj h).symm⟩)

/-- The command's meaning stops only where SEQ's index is outside its μ-program (log 12). -/
theorem exec_running_next {c : Instr} {i : Nat} {L : Locals} {s : State} (h : s.seq = .run c i L)
    (hi : i < (progOf s.cfg c).length) :
    exec c s = .next (microStep (progOf s.cfg c)[i] c i L s) :=
  exec_running h (List.getElem?_eq_getElem hi)

/-! ### The other agents -/

/-- A turn of SEQ. -/
theorem sequencerTurn_next {s t : State} (h : sequencerTurn s = .next t) :
    (s.seq = .idle ∧ t = s) ∨
    (∃ c i L op, s.seq = .run c i L ∧ (progOf s.cfg c)[i]? = some op ∧ t = microStep op c i L s) := by
  cases hs : s.seq with
  | idle => simp only [sequencerTurn, hs] at h; exact .inl ⟨rfl, (Outcome.next.inj h).symm⟩
  | run c i L =>
    simp only [sequencerTurn, hs] at h
    rcases exec_next h with ⟨h', _⟩ | ⟨j, M, op, h', hop, rfl⟩ | ⟨c', j, M, h', hc, _⟩
    · simp [hs] at h'
    · rw [hs] at h'; cases h'; exact .inr ⟨c, i, L, op, rfl, hop, rfl⟩
    · rw [hs] at h'; cases h'; exact absurd rfl hc

/-- `busy` is SEQ ≠ Idle (10_state.md R13). -/
theorem State.busy_eq_false {s : State} : s.busy = false ↔ s.seq = .idle := by
  cases h : s.seq <;> simp [State.busy, h]

/-- Everything a host access can do: raise a fault, read, write port registers while Idle, refuse an illegal word while
Idle, or accept a command while Idle (20_memory.md R31 to R36). -/
theorem hostAccess_next {a : HostAccess} {s t : State} (h : hostAccess a s = .next t) :
    (∃ f, t = s.raise f) ∨ (∃ r, t = s.hostRead r) ∨
    (s.seq = .idle ∧ ∃ x y, t = { s with portS := x, portE := y }) ∨
    (s.seq = .idle ∧ t = { s with result := .illegalCmd }) ∨
    (s.seq = .idle ∧ ∃ c, t = accept c (rejectOf s.cfg c) (localsOf s.cfg c) s) := by
  cases a with
  | read addr bytes =>
    simp only [hostAccess] at h
    cases hr : regOfAccess s.cfg addr bytes with
    | none => rw [hr] at h; exact .inl ⟨_, (Outcome.next.inj h).symm⟩
    | some r => rw [hr] at h; exact .inr (.inl ⟨r, (Outcome.next.inj h).symm⟩)
  | write addr bytes v =>
    simp only [hostAccess] at h
    cases hr : regOfAccess s.cfg addr bytes with
    | none => rw [hr] at h; exact .inl ⟨_, (Outcome.next.inj h).symm⟩
    | some r =>
      rw [hr] at h
      cases hb : s.busy with
      | true =>
        cases r <;> simp [hostWrite, State.hostPortWrite, hb] at h <;> exact .inl ⟨_, h.symm⟩
      | false =>
        have hi := State.busy_eq_false.mp hb
        cases r <;> simp [hostWrite, State.hostPortWrite, hb] at h
        case cmd =>
          cases hd : decode v with
          | cmd c =>
            simp only [acceptWord, hd] at h
            rw [exec_idle hi] at h
            exact .inr (.inr (.inr (.inr ⟨hi, c, (Outcome.next.inj h).symm⟩)))
          | illegal why =>
            simp only [acceptWord, hd] at h
            exact .inr (.inr (.inr (.inl ⟨hi, (Outcome.next.inj h).symm⟩)))
        case status => exact .inl ⟨_, h.symm⟩
        case tctrl => exact .inl ⟨_, h.symm⟩
        case ticks => exact .inl ⟨_, h.symm⟩
        case tcomp => exact .inl ⟨_, h.symm⟩
        case sPin => exact .inl ⟨_, h.symm⟩
        case ePin => exact .inl ⟨_, h.symm⟩
        all_goals exact .inr (.inr (.inl ⟨hi, _, _, h.symm⟩))

/-- Everything a step can do, by whose turn it is. -/
theorem step_next {s t : State} (h : step s = .next t) :
    (∃ a, s.nextEvent = .host a ∧ hostAccess a { s.afterEvent with readData := none } = .next t) ∨
    (s.nextEvent = .seq ∧ sequencerTurn s.afterEvent = .next t) ∨
    (s.nextEvent = .compareMatch ∧ t = s.afterEvent.compareMatch) ∨
    (s.nextEvent = .isr ∧ t = s.afterEvent.takeInterrupt) := by
  unfold step at h
  cases he : s.nextEvent with
  | host a => rw [he] at h; exact .inl ⟨a, rfl, h⟩
  | seq => rw [he] at h; exact .inr (.inl ⟨rfl, h⟩)
  | compareMatch => rw [he] at h; exact .inr (.inr (.inl ⟨rfl, (Outcome.next.inj h).symm⟩))
  | isr => rw [he] at h; exact .inr (.inr (.inr ⟨rfl, (Outcome.next.inj h).symm⟩))

/-- A property of the state that every atomic step of every agent keeps is kept by the block's step: what an invariant
needs, once. The premises are the kinds of atomic step (20_memory.md R38). -/
theorem step_preserves {Inv : State → Prop}
    (turn : ∀ s, Inv s → Inv s.afterEvent)
    (data : ∀ s, Inv s → Inv { s with readData := none })
    (raise : ∀ s f, Inv s → Inv (s.raise f))
    (read : ∀ s r, Inv s → Inv (s.hostRead r))
    (ports : ∀ s x y, s.seq = .idle → Inv s → Inv { s with portS := x, portE := y })
    (illegal : ∀ s, s.seq = .idle → Inv s → Inv { s with result := .illegalCmd })
    (accepted : ∀ s c, s.seq = .idle → Inv s → Inv (accept c (rejectOf s.cfg c) (localsOf s.cfg c) s))
    (micro : ∀ s c i L op, s.seq = .run c i L → (progOf s.cfg c)[i]? = some op → Inv s →
      Inv (microStep op c i L s))
    (tick : ∀ s, Inv s → Inv s.compareMatch)
    (interrupt : ∀ s, Inv s → Inv s.takeInterrupt)
    {s t : State} (hs : Inv s) (h : step s = .next t) : Inv t := by
  rcases step_next h with ⟨a, _, ha⟩ | ⟨_, hq⟩ | ⟨_, rfl⟩ | ⟨_, rfl⟩
  · have h0 := data _ (turn s hs)
    rcases hostAccess_next ha with ⟨f, rfl⟩ | ⟨r, rfl⟩ | ⟨hi, x, y, rfl⟩ | ⟨hi, rfl⟩ | ⟨hi, c, rfl⟩
    · exact raise _ f h0
    · exact read _ r h0
    · exact ports _ x y hi h0
    · exact illegal _ hi h0
    · exact accepted _ c hi h0
  · rcases sequencerTurn_next hq with ⟨_, rfl⟩ | ⟨c, i, L, op, hr, hop, rfl⟩
    · exact turn s hs
    · exact micro _ c i L op hr hop (turn s hs)
  · exact tick _ (turn s hs)
  · exact interrupt _ (turn s hs)

end Sys2Proof.Machine
end

