-- ==== Sys2Proof/Laws/PerInstr.lean ====
section
/-! SUPPORT. One lemma per command about its word: the opcode the table gives it and the reserved bits 0
(30_encoding.md R49, R50). -/

namespace Sys2Proof.Laws.Encoding

open Sys2Proof

/-- The opcode of each command (30_encoding.md R50). -/
def opcode : Instr → BitVec 4
  | .tcfg _ => 0x1
  | .tstop => 0x2
  | .wait _ => 0x3
  | .einit => 0x4
  | .eread => 0x5
  | .sinit => 0x6
  | .smove _ _ => 0x7

/-- A command's word has the command's opcode in bits 3:0 and 0 in bits 15:8 (30_encoding.md R49, R50). -/
def Statement (i : Instr) : Prop := opField (encode i) = opcode i ∧ rsvField (encode i) = 0#8

theorem tcfg (m : BitVec 4) : Statement (.tcfg m) := by simp [Statement, encode, opcode]
theorem tstop : Statement .tstop := by simp [Statement, encode, opcode]
theorem wait (d : Nat) : Statement (.wait d) := by simp [Statement, encode, opcode]
theorem einit : Statement .einit := by simp [Statement, encode, opcode]
theorem eread : Statement .eread := by simp [Statement, encode, opcode]
theorem sinit : Statement .sinit := by simp [Statement, encode, opcode]
theorem smove (dir : BitVec 4) (n : Nat) : Statement (.smove dir n) := by simp [Statement, encode, opcode]

end Sys2Proof.Laws.Encoding
end

