-- ==== Sys2Proof/Laws/Programs.lean ====
section
/-! SUPPORT. Where each μ-operation of a WaitProg stands in the μ-program that contains it, and that Done is the last one of
every μ-program (41_timer.md R73, 30_encoding.md R59). -/

namespace Sys2Proof.Machine

@[simp] theorem clearOps_length (p : Params) (d : Nat) : (clearOps p d).length = accessSteps p := by
  unfold clearOps accessSteps; split <;> simp

@[simp] theorem pollOps_length (p : Params) : (pollOps p).length = accessSteps p := by
  unfold pollOps accessSteps; split <;> simp

/-- TICK_W/8 is at most 4. -/
theorem tickBytes_le (w : TickWidth) : w.bytes ≤ 4 := by cases w <;> decide

/-- A CLEAR takes at least one and at most four μ-steps. -/
theorem accessSteps_bounds (p : Params) : 1 ≤ accessSteps p ∧ accessSteps p ≤ 4 := by
  unfold accessSteps; split
  · decide
  · cases p.tickW <;> decide

/-- The μ-program of a command that waits: what comes before its WaitProg, the WaitProg, what comes after. -/
theorem progOf_split {p : Params} {c : Instr} {d : Nat} (hc : waitDuration c = some d) :
    ∃ pre post last, progOf p c = pre ++ (clearOps p d ++ ([.cfg .slow] ++ (pollOps p ++ ([last] ++ post)))) ∧
      pre.length = waitStart c ∧
      ((∃ dir n, c = .smove dir n) ∧ last = .stopOrRepeat ∧ post = [.done .ok] ∨
       c = .sinit ∧ last = .stop ∧ post = [.sclr, .done .ok] ∨
       (∃ d, c = .wait d) ∧ last = .stop ∧ post = [.done .ok]) := by
  cases c <;> simp [waitDuration] at hc <;> subst hc
  · exact ⟨[], _, _, by simp [progOf, progWait, waitProg, Config.waitMode], rfl,
      .inr (.inr ⟨by simp, rfl, rfl⟩)⟩
  · exact ⟨[.sdir, .spat], _, _, by simp [progOf, progSinit, waitProg, Config.waitMode], rfl,
      .inr (.inl ⟨rfl, rfl, rfl⟩)⟩
  · exact ⟨[.micro], _, _, by simp [progOf, progSmove, waitProg, Config.waitMode], rfl,
      .inl ⟨by simp, rfl, rfl⟩⟩

/-- The `k`-th μ-step of CLEAR. -/
theorem progOf_clear {p : Params} {c : Instr} {d k : Nat} (hc : waitDuration c = some d) (hk : k < accessSteps p) :
    (progOf p c)[waitStart c + k]? = some (if p.tickAtomic then .clear d else .clearByte d k) := by
  obtain ⟨pre, post, last, hp, hl, _⟩ := progOf_split (p := p) hc
  rw [hp, ← hl, List.getElem?_append_right (by omega), Nat.add_sub_cancel_left,
    List.getElem?_append_left (by simpa using hk)]
  unfold accessSteps at hk
  unfold clearOps
  split
  · rename_i h; simp [h] at hk; simp [hk]
  · rename_i h; simp [h] at hk; simp [hk]

/-- CFG, after CLEAR. -/
theorem progOf_cfg {p : Params} {c : Instr} {d : Nat} (hc : waitDuration c = some d) :
    (progOf p c)[waitStart c + accessSteps p]? = some (.cfg .slow) := by
  obtain ⟨pre, post, last, hp, hl, _⟩ := progOf_split (p := p) hc
  rw [hp, ← hl, List.getElem?_append_right (by omega), Nat.add_sub_cancel_left,
    List.getElem?_append_right (by simp), clearOps_length, Nat.sub_self]
  rfl

/-- The `k`-th μ-step of POLL. -/
theorem progOf_poll {p : Params} {c : Instr} {d k : Nat} (hc : waitDuration c = some d) (hk : k < accessSteps p) :
    (progOf p c)[waitStart c + accessSteps p + 1 + k]? =
      some (if p.tickAtomic then .poll else .pollByte k (decide (k + 1 = accessSteps p))) := by
  obtain ⟨pre, post, last, hp, hl, _⟩ := progOf_split (p := p) hc
  rw [hp, ← hl, List.getElem?_append_right (by omega), List.getElem?_append_right (by simp; omega),
    List.getElem?_append_right (by simp; omega), List.getElem?_append_left (by simp; omega), clearOps_length,
    List.length_singleton, show pre.length + accessSteps p + 1 + k - pre.length - accessSteps p - 1 = k by omega]
  unfold accessSteps at hk ⊢
  unfold pollOps
  split
  · rename_i h; simp [h] at hk; simp [hk]
  · rename_i h; simp [h] at hk; simp [hk]

/-- STOP, after POLL; SMOVE's also decides the repetition. -/
theorem progOf_stop {p : Params} {c : Instr} {d : Nat} (hc : waitDuration c = some d) :
    (progOf p c)[waitStart c + 2 * accessSteps p + 1]? = some .stop ∧ (¬ ∃ dir n, c = .smove dir n) ∨
    (progOf p c)[waitStart c + 2 * accessSteps p + 1]? = some .stopOrRepeat ∧ (∃ dir n, c = .smove dir n) := by
  obtain ⟨pre, post, last, hp, hl, hcases⟩ := progOf_split (p := p) hc
  have hg : (progOf p c)[waitStart c + 2 * accessSteps p + 1]? = some last := by
    rw [hp, ← hl, List.getElem?_append_right (by omega), List.getElem?_append_right (by simp; omega),
      List.getElem?_append_right (by simp; omega), List.getElem?_append_right (by simp; omega),
      List.getElem?_append_left (by simp; omega)]
    simp only [clearOps_length, pollOps_length, List.length_singleton]
    rw [show pre.length + 2 * accessSteps p + 1 - pre.length - accessSteps p - 1 - accessSteps p = 0 by omega]
    rfl
  rw [hg]
  rcases hcases with ⟨h, rfl, _⟩ | ⟨rfl, rfl, _⟩ | ⟨⟨d, rfl⟩, rfl, _⟩
  · exact .inr ⟨rfl, h⟩
  · exact .inl ⟨rfl, by simp⟩
  · exact .inl ⟨rfl, by simp⟩

/-- How long the μ-program of a command that waits is. -/
theorem progOf_length {p : Params} {c : Instr} {d : Nat} (hc : waitDuration c = some d) :
    (progOf p c).length = waitStart c + 2 * accessSteps p + 3 + (if c = .sinit then 1 else 0) := by
  obtain ⟨pre, post, last, hp, hl, hcases⟩ := progOf_split (p := p) hc
  rw [hp]
  rcases hcases with ⟨⟨dir, n, rfl⟩, rfl, rfl⟩ | ⟨rfl, rfl, rfl⟩ | ⟨⟨d, rfl⟩, rfl, rfl⟩ <;>
    simp [hl] <;> omega

/-- Done(0) is the last μ-operation of every μ-program (10_state.md R12). -/
theorem progOf_done (p : Params) (c : Instr) : (progOf p c)[(progOf p c).length - 1]? = some (.done .ok) := by
  cases c with
  | tcfg m => simp only [progOf, progTcfg]; split <;> rfl
  | tstop => rfl
  | wait d => simp [progOf, progWait]
  | einit => rfl
  | eread => rfl
  | sinit =>
    obtain ⟨pre, post, last, hp, -, h⟩ := progOf_split (p := p) (c := .sinit) (d := Config.settleMs) rfl
    simp at h
    obtain ⟨rfl, rfl⟩ := h
    rw [hp, ← List.getLast?_eq_getElem?]
    simp [List.getLast?_cons]
  | smove dir n =>
    obtain ⟨pre, post, last, hp, -, h⟩ := progOf_split (p := p) (c := .smove dir n) (d := Config.paceMs) rfl
    simp at h
    obtain ⟨rfl, rfl⟩ := h
    rw [hp, ← List.getLast?_eq_getElem?]
    simp [List.getLast?_cons]

/-- Every index of a μ-program that contains a WaitProg, and the μ-operation there: before the WaitProg, in its CLEAR, its
CFG, its POLL, its STOP, or after it. -/
theorem progOf_at {p : Params} {c : Instr} {d i : Nat} {op : MicroOp} (hc : waitDuration c = some d)
    (h : (progOf p c)[i]? = some op) :
    i < waitStart c ∨
    (∃ k, k < accessSteps p ∧ i = waitStart c + k ∧ op = if p.tickAtomic then .clear d else .clearByte d k) ∨
    (i = waitStart c + accessSteps p ∧ op = .cfg .slow) ∨
    (∃ k, k < accessSteps p ∧ i = waitStart c + accessSteps p + 1 + k ∧
      op = if p.tickAtomic then .poll else .pollByte k (decide (k + 1 = accessSteps p))) ∨
    (i = waitStart c + 2 * accessSteps p + 1 ∧
      (op = .stop ∧ (¬ ∃ dir n, c = .smove dir n) ∨ op = .stopOrRepeat ∧ ∃ dir n, c = .smove dir n)) ∨
    (i = waitStart c + 2 * accessSteps p + 2 ∧ (op = .sclr ∧ c = .sinit ∨ op = .done .ok ∧ c ≠ .sinit)) ∨
    (i = waitStart c + 2 * accessSteps p + 3 ∧ op = .done .ok ∧ c = .sinit) := by
  have hi := (List.getElem?_eq_some_iff.mp h).1
  rw [progOf_length hc] at hi
  by_cases h0 : i < waitStart c
  · exact .inl h0
  obtain ⟨j, rfl⟩ := Nat.exists_eq_add_of_le (Nat.le_of_not_lt h0)
  refine .inr ?_
  by_cases h1 : j < accessSteps p
  · rw [progOf_clear hc h1] at h
    exact .inl ⟨j, h1, rfl, (Option.some.inj h).symm⟩
  refine .inr ?_
  by_cases h2 : j = accessSteps p
  · subst h2; rw [progOf_cfg hc] at h
    exact .inl ⟨rfl, (Option.some.inj h).symm⟩
  refine .inr ?_
  by_cases h3 : j < 2 * accessSteps p + 1
  · obtain ⟨k, rfl⟩ := Nat.exists_eq_add_of_le (show accessSteps p + 1 ≤ j by omega)
    have hk : k < accessSteps p := by omega
    rw [show waitStart c + (accessSteps p + 1 + k) = waitStart c + accessSteps p + 1 + k by omega,
      progOf_poll hc hk] at h
    exact .inl ⟨k, hk, by omega, (Option.some.inj h).symm⟩
  refine .inr ?_
  by_cases h4 : j = 2 * accessSteps p + 1
  · subst h4
    rcases progOf_stop (p := p) hc with ⟨hg, hm⟩ | ⟨hg, hm⟩ <;> rw [← Nat.add_assoc, hg] at h
    · exact .inl ⟨by omega, .inl ⟨(Option.some.inj h).symm, hm⟩⟩
    · exact .inl ⟨by omega, .inr ⟨(Option.some.inj h).symm, hm⟩⟩
  refine .inr ?_
  have hd := progOf_done p c
  rw [progOf_length hc] at hd
  by_cases hs : c = .sinit
  · subst hs
    simp only [if_pos] at hi hd
    by_cases h5 : j = 2 * accessSteps p + 2
    · subst h5
      refine .inl ⟨by omega, .inl ⟨?_, rfl⟩⟩
      obtain ⟨pre, post, last, hp, hl, hcases⟩ := progOf_split (p := p) hc
      simp at hcases
      obtain ⟨rfl, rfl⟩ := hcases
      rw [hp, ← hl, List.getElem?_append_right (by omega), List.getElem?_append_right (by simp; omega),
        List.getElem?_append_right (by simp; omega), List.getElem?_append_right (by simp; omega)] at h
      simp only [clearOps_length, pollOps_length, List.length_singleton] at h
      rw [show pre.length + (2 * accessSteps p + 2) - pre.length - accessSteps p - 1 - accessSteps p = 1 by omega] at h
      exact (Option.some.inj h).symm
    · refine .inr ⟨by omega, ?_, rfl⟩
      rw [show waitStart Instr.sinit + j = waitStart .sinit + 2 * accessSteps p + 3 + 1 - 1 by omega, hd] at h
      exact (Option.some.inj h).symm
  · rw [if_neg hs] at hi hd
    refine .inl ⟨by omega, .inr ⟨?_, hs⟩⟩
    rw [show waitStart c + j = waitStart c + 2 * accessSteps p + 3 + 0 - 1 by omega, hd] at h
    exact (Option.some.inj h).symm

/-- A byte of the TICK_W bits of a word, below TICK_W/8, is that byte of the word. -/
theorem byteOf_tickBits (w : Word) (width : TickWidth) (k : Nat) (hk : k < width.bytes) :
    byteOf (BitVec.ofNat 32 (w.toNat % 2 ^ width.bits)) k = byteOf w k := by
  ext b hb
  have hw := tickBytes_le width
  have h1 : 8 * k + b < width.bits := by unfold TickWidth.bits; omega
  have h2 : 8 * k + b < 32 := by omega
  simp only [byteOf, BitVec.getElem_extractLsb', BitVec.getLsbD_ofNat, Nat.testBit_mod_two_pow, h1, h2,
    BitVec.testBit_toNat, decide_true, Bool.true_and]

/-- A count of TICK_W bits fits the 32-bit slot. -/
theorem toNat_tickBits (width : TickWidth) (n : Nat) :
    (BitVec.ofNat 32 (n % 2 ^ width.bits)).toNat = n % 2 ^ width.bits := by
  rw [BitVec.toNat_ofNat]
  apply Nat.mod_eq_of_lt
  calc n % 2 ^ width.bits < 2 ^ width.bits := Nat.mod_lt _ (Nat.two_pow_pos _)
    _ ≤ 2 ^ 32 := Nat.pow_le_pow_right (by omega) (by cases width <;> decide)

/-- Writing one of the TICK_W/8 low bytes of a value of TICK_W bits leaves TICK_W bits (20_memory.md R39). -/
theorem setByte_lt (w : TickWidth) (v : Word) (b : Byte) (k : Nat) (hk : k < w.bytes) (hv : v.toNat < 2 ^ w.bits) :
    (setByte v k b).toNat < 2 ^ w.bits := by
  apply Nat.lt_pow_two_of_testBit
  intro i hi
  have h4 := tickBytes_le w
  have hv' : v.getLsbD i = false := by
    rw [BitVec.getLsbD, Nat.testBit_lt_two_pow]
    exact Nat.lt_of_lt_of_le hv (Nat.pow_le_pow_right (by omega) hi)
  have h8 : 8 * k + 8 ≤ i := by unfold TickWidth.bits at hi; omega
  rw [← BitVec.getLsbD]
  simp [setByte, hv']
  intro h h2 h3
  apply BitVec.getLsbD_of_ge; omega

end Sys2Proof.Machine
end

