-- ==== Sys2Proof/Laws/Runs.lean ====
section
/-! SUPPORT. Runs under a schedule: no turn depends on the turns to come or changes them, so a run under `turns` makes them
one after the other. -/

namespace Sys2Proof.Machine

open Host (Outcome)

/-- An accepted or rejected command touches SEQ and RESULT alone (30_encoding.md R58). -/
theorem accept_eq (c : Instr) (r : Option ResultCode) (L : Locals) (s : State) :
    accept c r L s = { s with result := (accept c r L s).result, seq := (accept c r L s).seq } := by
  unfold accept; split <;> rfl

/-- No μ-step writes the parameters. -/
@[simp] theorem microStep_cfg (op : MicroOp) (c : Instr) (i : Nat) (L : Locals) (s : State) :
    (microStep op c i L s).cfg = s.cfg := by
  cases op <;> simp [microStep]
  split <;> simp

/-- No μ-step writes the agenda. -/
@[simp] theorem microStep_agenda (op : MicroOp) (c : Instr) (i : Nat) (L : Locals) (s : State) :
    (microStep op c i L s).agenda = s.agenda := by
  cases op <;> simp [microStep]
  split <;> simp

/-- No turn writes the agenda: the step takes the turn out before it. -/
theorem agentTurn_agenda {e : Event} {s t : State} (h : agentTurn e s = .next t) : t.agenda = s.agenda := by
  cases e with
  | host a =>
    rcases hostAccess_next h with ⟨f, rfl⟩ | ⟨r, rfl⟩ | ⟨_, x, y, rfl⟩ | ⟨_, rfl⟩ | ⟨_, c, rfl⟩ <;> simp
    rw [accept_eq]
  | seq => rcases sequencerTurn_next h with ⟨_, rfl⟩ | ⟨c, i, L, op, _, _, rfl⟩ <;> simp
  | compareMatch => rw [← Outcome.next.inj h]; simp
  | isr => rw [← Outcome.next.inj h]; simp

/-- A run under no turns leaves the state, its agenda empty. -/
@[simp] theorem runUnder_nil (s : State) : runUnder [] s = .next { s with agenda := [] } := rfl

/-- A run under a first turn and others makes that turn, with the others to come, and goes on. -/
theorem runUnder_cons {e : Event} {es : List Event} {s t : State}
    (h : agentTurn e { s with agenda := es } = .next t) : runUnder (e :: es) s = runUnder es t := by
  have ht : t.agenda = es := agentTurn_agenda h
  have h1 : step { s with agenda := e :: es } = .next t := h
  have h2 : ({ t with agenda := es } : State) = t := by rw [← ht]
  have h3 : Sys2Proof.core.step { s with agenda := e :: es } = .next t := h1
  simp only [runUnder, List.length_cons, Host.Core.run]
  rw [h3, h2]

/-- What stands in the agenda before a run does not matter to it. -/
theorem runUnder_congr {s t : State} (h : ({ s with agenda := [] } : State) = { t with agenda := [] }) (es : List Event) :
    runUnder es s = runUnder es t := by
  have : ({ s with agenda := es } : State) = { t with agenda := es } := by
    rw [show ({ s with agenda := es } : State) = { ({ s with agenda := [] } : State) with agenda := es } from rfl, h]
  exact congrArg (Host.Core.run Sys2Proof.core es.length) this

/-- A μ-step does not read the agenda. -/
theorem microStep_withAgenda (op : MicroOp) (c : Instr) (i : Nat) (L : Locals) (s : State) (l : List Event) :
    microStep op c i L { s with agenda := l } = { microStep op c i L s with agenda := l } := by
  cases op <;> try rfl
  case esample => rcases s with ⟨_, _, _, _, _, _, _, _, _, _, _, _, _ | _, _, _⟩ <;> rfl
  case micro =>
    simp only [microStep, State.microDrive]
    split <;> split <;> rfl

/-- A turn of SEQ at the μ-operation `op` of the running command. -/
theorem runUnder_seq {s : State} {c : Instr} {i : Nat} {L : Locals} {op : MicroOp} (es : List Event)
    (h : s.seq = .run c i L) (hop : (progOf s.cfg c)[i]? = some op) :
    runUnder (.seq :: es) s = runUnder es (microStep op c i L s) := by
  have hs : sequencerTurn { s with agenda := es } = exec c { s with agenda := es } := by
    simp only [sequencerTurn, h]
  have ht := hs.trans (exec_running h hop)
  rw [microStep_withAgenda] at ht
  exact (runUnder_cons (e := .seq) ht).trans (runUnder_congr rfl es)

/-- A turn of MATCH. -/
theorem runUnder_compareMatch (es : List Event) (s : State) :
    runUnder (.compareMatch :: es) s = runUnder es s.compareMatch := by
  refine (runUnder_cons rfl).trans (runUnder_congr ?_ es)
  unfold State.compareMatch; split <;> simp_all

/-- A turn of ISR. -/
theorem runUnder_isr (es : List Event) (s : State) : runUnder (.isr :: es) s = runUnder es s.takeInterrupt := by
  refine (runUnder_cons rfl).trans (runUnder_congr ?_ es)
  unfold State.takeInterrupt; split <;> simp_all

/-- The host's write of a command's word while SEQ is Idle. -/
theorem runUnder_command {s t : State} {c : Instr} (es : List Event) (h : s.seq = .idle)
    (hd : decode (encode c) = .cmd c) (ht : t.cfg.blockBase = s.cfg.blockBase) :
    runUnder (writeCommand t (encode c) :: es) s =
      runUnder es (accept c (rejectOf s.cfg c) (localsOf s.cfg c) { s with readData := none }) := by
  refine (runUnder_cons (t := accept c (rejectOf s.cfg c) (localsOf s.cfg c)
    { s with agenda := es, readData := none }) ?_).trans (runUnder_congr ?_ es)
  · simp only [agentTurn, writeCommand, hostAccess, ht]
    rw [show regOfAccess s.cfg s.cfg.blockBase 4 = some .cmd by simp [regOfAccess, regAtOffset]]
    have hb : ({ s with agenda := es, readData := none } : State).busy = false := State.busy_eq_false.mpr h
    simp only [hostWrite, hb, acceptWord, hd]
    exact exec_idle h
  · unfold accept; split <;> rfl

/-! ### Parts of S_REF -/

/-- A value of TICK_W bits fits in 32. -/
theorem lt_two_pow_of_tickBits (p : Params) {d : Nat} (h : d < 2 ^ p.tickW.bits) : d < 2 ^ 32 :=
  Nat.lt_of_lt_of_le h (Nat.pow_le_pow_right (by omega) (by cases p.tickW <;> decide))

/-- The failing POLLs of an atomic WaitProg(d) under S_REF, each followed by a tick: from `k` ticks before `d` to `d` ticks
(41_timer.md R70 to R75). -/
theorem runUnder_polls {c : Instr} {d j : Nat} (k : Nat) {t : State} {L : Locals} {es : List Event}
    (hop : (progOf t.cfg c)[j]? = some .poll) (hd : d < 2 ^ t.cfg.tickW.bits) (hk : k ≤ d) (hL : L.d = d)
    (ht : t.ticks = BitVec.ofNat 32 (d - k)) (hm : t.tctrl.mode = .slow) (hti : t.tctrl.tie = true)
    (hg : t.tctrl.gie = true) (hq : t.seq = .run c j L) :
    ∃ v, runUnder ((List.replicate k pollThenTick).flatten ++ es) t = runUnder es { t with
      ticks := BitVec.ofNat 32 d
      tctrl := { t.tctrl with pend := if k = 0 then t.tctrl.pend else false }
      seq := .run c j { L with v := v } } := by
  induction k generalizing t L with
  | zero =>
    refine ⟨L.v, ?_⟩
    simp only [List.replicate_zero, List.flatten_nil, List.nil_append, if_true]
    congr 1
    rw [Nat.sub_zero] at ht
    rw [← ht, ← hq]
  | succ k ih =>
    have hlt : d - (k + 1) < 2 ^ 32 := lt_two_pow_of_tickBits t.cfg (by omega)
    have hval : t.tickValue = BitVec.ofNat 32 (d - (k + 1)) := by
      rw [State.tickValue, ht, BitVec.toNat_ofNat, Nat.mod_eq_of_lt hlt, Nat.mod_eq_of_lt (by omega)]
    have hp : pollTarget L t.tickValue j j = j := by
      rw [pollTarget, if_neg]
      rw [hval, hL, BitVec.toNat_ofNat, Nat.mod_eq_of_lt hlt]; omega
    simp only [List.replicate_succ, List.flatten_cons, pollThenTick, List.cons_append, List.nil_append]
    rw [runUnder_seq _ hq hop, runUnder_compareMatch, runUnder_isr]
    have hnew : (microStep .poll c j L t).compareMatch.takeInterrupt = { t with
        ticks := BitVec.ofNat 32 (d - k)
        tctrl := { t.tctrl with pend := false }
        seq := .run c j { L with v := t.tickValue } } := by
      simp [microStep, State.goto, State.compareMatch, matchEnabled, State.takeInterrupt, isrEnabled, hm, hti, hg, hp]
      simp only [ht, BitVec.toNat_ofNat, Nat.mod_eq_of_lt hlt]
      rw [Nat.mod_eq_of_lt (by omega)]
      congr 1; omega
    rw [hnew]
    obtain ⟨v, hrun⟩ := ih (t := { t with
        ticks := BitVec.ofNat 32 (d - k)
        tctrl := { t.tctrl with pend := false }
        seq := .run c j { L with v := t.tickValue } }) (L := { L with v := t.tickValue })
      hop hd (by omega) hL rfl hm hti hg rfl
    exact ⟨v, hrun.trans (by simp)⟩

open Classical in
/-- An atomic WaitProg(d) with d < 2^TICK_W under S_REF, from its CLEAR: it ends past its STOP with TICKS = d and the timer
stopped, whichever command contains it; the STOP of an SMOVE goes back to MICRO while iterations remain (41_timer.md R73 to
R76, 44_stepper.md R101). -/
theorem runUnder_waitTurns {s : State} {c : Instr} {d : Nat} {L : Locals} {es : List Event}
    (hc : waitDuration c = some d) (ha : s.cfg.tickAtomic = true) (hd : d < 2 ^ s.cfg.tickW.bits)
    (hq : s.seq = .run c (waitStart c) L) :
    runUnder (waitTurns d ++ es) s = runUnder es { s with
      ticks := BitVec.ofNat 32 d
      tctrl := { mode := .off, tie := false, gie := true, pend := if d = 0 then s.tctrl.pend else false }
      tcomp := Config.ocrSlow
      seq := .run c (if (∃ dir n, c = .smove dir n) ∧ L.it < L.lim then 0 else waitStart c + 4)
        { L with d := d, v := BitVec.ofNat 32 d } } := by
  have h1 : accessSteps s.cfg = 1 := by simp [accessSteps, ha]
  have o0 : (progOf s.cfg c)[waitStart c]? = some (.clear d) := by
    simpa [ha] using progOf_clear (p := s.cfg) (k := 0) hc (by omega)
  have o1 : (progOf s.cfg c)[waitStart c + 1]? = some (.cfg .slow) := by
    simpa [h1] using progOf_cfg (p := s.cfg) hc
  have o2 : (progOf s.cfg c)[waitStart c + 2]? = some .poll := by
    simpa [h1, ha] using progOf_poll (p := s.cfg) (k := 0) hc (by omega)
  have o3 := progOf_stop (p := s.cfg) hc
  have hdl := lt_two_pow_of_tickBits s.cfg hd
  have hv : ∀ t : State, t.cfg = s.cfg → t.ticks = BitVec.ofNat 32 d → t.tickValue = BitVec.ofNat 32 d := by
    intro t h1 h2
    rw [State.tickValue, h1, h2, BitVec.toNat_ofNat, Nat.mod_eq_of_lt hdl, Nat.mod_eq_of_lt hd]
  have hpt : ∀ v, pollTarget { L with d := d, v := v } (BitVec.ofNat 32 d) (waitStart c + 2) (waitStart c + 2) =
      waitStart c + 3 := by
    intro v; rw [pollTarget, if_pos (by rw [BitVec.toNat_ofNat, Nat.mod_eq_of_lt hdl])]
  simp only [waitTurns, List.cons_append, List.append_assoc, List.nil_append]
  rw [runUnder_seq _ hq o0]
  refine (runUnder_seq (i := waitStart c + 1) (L := { L with d := d }) (op := .cfg .slow) _ rfl ?_).trans ?_
  · simpa using o1
  obtain ⟨v, hrun⟩ := runUnder_polls (c := c) (d := d) (j := waitStart c + 2) (L := { L with d := d })
    (t := microStep (.cfg .slow) c (waitStart c + 1) { L with d := d } (microStep (.clear d) c (waitStart c) L s))
    (es := .seq :: .seq :: es) d (by simpa using o2) (by simpa using hd) (le_refl d) rfl (by simp [microStep]) rfl rfl
    rfl rfl
  refine hrun.trans ?_
  refine (runUnder_seq (i := waitStart c + 2) (L := { L with d := d, v := v }) (op := .poll) _ rfl ?_).trans ?_
  · simpa using o2
  rcases o3 with ⟨o3, hns⟩ | ⟨o3, hsm⟩
  · refine (runUnder_seq (c := c) (i := waitStart c + 3) (L := { L with d := d, v := BitVec.ofNat 32 d }) (op := .stop) _
      ?_ ?_).trans ?_
    · simp only [microStep, State.goto_seq]
      rw [hv _ (by simp) rfl, hpt]
    · simpa [h1] using o3
    · rw [if_neg (c := (∃ dir n, c = .smove dir n) ∧ L.it < L.lim) (fun h => hns h.1)]
      simp [microStep, State.goto, State.timerStop, State.timerConfigure]
      rfl
  · refine (runUnder_seq (c := c) (i := waitStart c + 3) (L := { L with d := d, v := BitVec.ofNat 32 d })
      (op := .stopOrRepeat) _ ?_ ?_).trans ?_
    · simp only [microStep, State.goto_seq]
      rw [hv _ (by simp) rfl, hpt]
    · simpa [h1] using o3
    · simp [microStep, State.goto, State.timerStop, State.timerConfigure, hsm]
      rfl

/-- The last `k + 1` micro-advances of an SMOVE iteration (44_stepper.md R99, R101). -/
theorem runUnder_micros (dir : BitVec 4) (n : Nat) (es : List Event) (s : State) (L : Locals) (k : Nat)
    (hm : L.m + k + 1 = 5) (hq : s.seq = .run (.smove dir n) 0 L) :
    runUnder (List.replicate (k + 1) .seq ++ es) s = runUnder es { s with
      seq := .run (.smove dir n) 1 { L with p := advances L.dir (k + 1) L.p, m := 0, it := L.it + 1 }
      portS := if validDirection L.dir = true ∨ s.cfg.invalidDirWrites = true
          then { s.portS with out := merge s.cfg.stepShift s.portS.out (advances L.dir (k + 1) L.p) }
          else s.portS } := by
  have hop : (progOf s.cfg (.smove dir n))[0]? = some .micro := rfl
  induction k generalizing s L with
  | zero =>
    rw [List.replicate_succ, List.replicate_zero, List.cons_append, List.nil_append, runUnder_seq _ hq hop]
    congr 1
    simp only [microStep]
    rw [if_neg (by simp [Config.microPerStep]; omega)]
    simp [State.goto, State.microDrive, State.stepperDrive, advances]
    split <;> simp
  | succ k ih =>
    rw [List.replicate_succ, List.cons_append, runUnder_seq _ hq hop]
    simp only [microStep]
    rw [if_pos (by simp [Config.microPerStep]; omega)]
    have hadv : ∀ j, advances L.dir (j + 1) (advance L.p L.dir) = advances L.dir (j + 2) L.p := by
      intro j; induction j with
      | zero => rfl
      | succ j ih => rw [advances, ih]; rfl
    refine (ih _ { L with p := advance L.p L.dir, m := L.m + 1 } (by simp; omega) (by simp) rfl).trans ?_
    congr 1
    simp only [hadv, State.goto, State.microDrive]
    split <;> simp_all [State.stepperDrive, merge_merge]

/-- Micro-advances made one after the other add up (44_stepper.md R103). -/
theorem advances_add (dir p : BitVec 4) (a b : Nat) : advances dir (a + b) p = advances dir b (advances dir a p) := by
  induction b with
  | zero => rfl
  | succ b ih => rw [← Nat.add_assoc, advances, ih]; rfl

end Sys2Proof.Machine
end

