-- ==== Sys2Proof/Machine/Assembler.lean ====
section
/-! DEFINITION. The assembly syntax and the pseudo-instructions (30_encoding.md R60, R61), on a line as a list of
characters. Not part of a step. Capitals and blanks: log 22. -/

namespace Sys2Proof.Machine

/-- What a line assembles to. -/
inductive Assembled where
  /-- The line is one command. -/
  | word (w : Word)
  /-- The line is empty or a comment. -/
  | nothing
  /-- An assembler error: no word is produced (30_encoding.md R60). -/
  | error
  deriving DecidableEq, Repr

/-- A blank or a tab. -/
def isBlank (c : Char) : Bool := c = ' ' || c = '\t'

/-- The line up to its comment: `;` starts one (30_encoding.md R60). -/
def withoutComment (line : List Char) : List Char := line.takeWhile (fun c => c ≠ ';')

/-- A text without the blanks at its two ends. -/
def trimBlanks (cs : List Char) : List Char :=
  (((cs.dropWhile isBlank).reverse).dropWhile isBlank).reverse

/-- The parts between commas: operands are separated by commas (30_encoding.md R60). -/
def commaParts : List Char → List (List Char)
  | [] => [[]]
  | c :: cs =>
    if c = ',' then [] :: commaParts cs
    else match commaParts cs with
      | [] => [[c]]
      | part :: parts => (c :: part) :: parts

/-- The value of a digit in a base, if it is one. -/
def digitValue (base : Nat) (c : Char) : Option Nat :=
  let v :=
    if '0' ≤ c ∧ c ≤ '9' then c.toNat - '0'.toNat
    else if 'a' ≤ c ∧ c ≤ 'f' then c.toNat - 'a'.toNat + 10
    else if 'A' ≤ c ∧ c ≤ 'F' then c.toNat - 'A'.toNat + 10
    else base
  if v < base then some v else none

/-- The value of a digit string, read onto `acc`. -/
def digitsValue (base : Nat) : List Char → Nat → Option Nat
  | [], acc => some acc
  | c :: cs, acc => (digitValue base c).bind fun v => digitsValue base cs (base * acc + v)

/-- A number, decimal or `0x` hexadecimal (30_encoding.md R60). -/
def numberOf : List Char → Option Nat
  | [] => none
  | '0' :: 'x' :: c :: cs => digitsValue 16 (c :: cs) 0
  | cs => digitsValue 10 cs 0

/-- A 16-bit operand, 0 to 65535. -/
def wordOperand (cs : List Char) : Option Nat :=
  (numberOf cs).bind fun v => if v < 65536 then some v else none

/-- A sub-operand `#k`, k in 0..15. -/
def subOperand : List Char → Option (BitVec 4)
  | '#' :: cs => (numberOf cs).bind fun v => if v < 16 then some (BitVec.ofNat 4 v) else none
  | _ => none

/-- TCFG's operand: `slow`, `fast` or `#k`. -/
def modeText (cs : List Char) : Option (BitVec 4) :=
  if cs = ['s', 'l', 'o', 'w'] then some 0x0
  else if cs = ['f', 'a', 's', 't'] then some 0x1
  else subOperand cs

/-- SMOVE's direction: `+1`, `-1` or `#k`. -/
def directionText (cs : List Char) : Option (BitVec 4) :=
  if cs = ['+', '1'] then some 0x1
  else if cs = ['-', '1'] then some 0xF
  else subOperand cs

/-- `DELAY d` is `WAIT d` (30_encoding.md R61). -/
def pseudoDelay (d : Nat) : Instr := .wait d
/-- `TSTART` is `TCFG slow` (30_encoding.md R61). -/
def pseudoTstart : Instr := .tcfg 0x0
/-- `CW n` is `SMOVE n, +1` (30_encoding.md R61). -/
def pseudoCw (n : Nat) : Instr := .smove 0x1 n
/-- `CCW n` is `SMOVE n, -1` (30_encoding.md R61). -/
def pseudoCcw (n : Nat) : Instr := .smove 0xF n

/-- The command of a mnemonic and its operands (30_encoding.md R60, R61); none is an assembler error. -/
def commandText (name : List Char) (operands : List (List Char)) : Option Instr :=
  match operands with
  | [] =>
    if name = ['T', 'S', 'T', 'O', 'P'] then some .tstop
    else if name = ['E', 'I', 'N', 'I', 'T'] then some .einit
    else if name = ['E', 'R', 'E', 'A', 'D'] then some .eread
    else if name = ['S', 'I', 'N', 'I', 'T'] then some .sinit
    else if name = ['T', 'S', 'T', 'A', 'R', 'T'] then some pseudoTstart
    else none
  | [x] =>
    if name = ['T', 'C', 'F', 'G'] then (modeText x).map .tcfg
    else if name = ['W', 'A', 'I', 'T'] then (wordOperand x).map .wait
    else if name = ['D', 'E', 'L', 'A', 'Y'] then (wordOperand x).map pseudoDelay
    else if name = ['C', 'W'] then (wordOperand x).map pseudoCw
    else if name = ['C', 'C', 'W'] then (wordOperand x).map pseudoCcw
    else none
  | [x, y] =>
    if name = ['S', 'M', 'O', 'V', 'E'] then
      (wordOperand x).bind fun n => (directionText y).map fun dir => .smove dir n
    else none
  | _ => none

/-- One line of assembly: a mnemonic, then operands separated by commas; `;` starts a comment (30_encoding.md R60). -/
def assembleLine (line : List Char) : Assembled :=
  let text := trimBlanks (withoutComment line)
  if text = [] then .nothing
  else
    let name := text.takeWhile (fun c => !isBlank c)
    let rest := trimBlanks (text.dropWhile fun c => !isBlank c)
    let operands := if rest = [] then [] else (commaParts rest).map trimBlanks
    match commandText name operands with
    | some i => .word (encode i)
    | none => .error

end Sys2Proof.Machine
end

