-- ==== Sys2Proof/Tests/Slice0.lean ====
section
/-! SUPPORT. Tests of the model against spec/95_test_vectors.md, and a witness for the hypotheses of every statement. Each
expected value is the spec's; the vector or the rule stands beside it. -/

namespace Sys2Proof.Tests

open Sys2Proof Sys2Proof.Machine

/-! ### Helpers -/

/-- A field of the next state; none at a stop. -/
def after {α : Type} (o : Host.Outcome State Fault Refusal) (f : State → α) : Option α :=
  match o with
  | .next t => some (f t)
  | .fault _ => none
  | .refused _ => none

/-- R0, the state at reset (10_state.md R28). -/
def r0 : State := State.reset

/-- R0 in strict mode. -/
def r0Strict : State := State.resetWith { Params.default with seqMode := .strict }

/-- R0 with byte-wise access to TICKS. -/
def r0Bytes : State := State.resetWith { Params.default with tickAtomic := false }

/-- R0 with TICK_W = 8. -/
def r0Narrow : State := State.resetWith { Params.default with tickW := .w8 }

/-- `s` with SEQ at index `i` of the μ-program of `c`. -/
def runAt (s : State) (c : Instr) (i : Nat) (L : Locals) : State := { s with seq := .run c i L }

/-- `s` with its turns to come. -/
def withTurns (s : State) (es : List Event) : State := { s with agenda := es }

/-- `s` with the timer running slow and its interrupt enabled: TCTRL = 0x0D, or 0x1D with a match pending. -/
def slowTimer (s : State) (pend : Bool) : State :=
  { s with tctrl := { mode := .slow, tie := true, gie := true, pend := pend } }

/-- SMOVE's locals after `it` iterations and `m` micro-advances, the phase bit at `p`. -/
def moveLocals (dir : BitVec 4) (n it lim m : Nat) (p : BitVec 4) : Locals :=
  { noLocals with p := p, it := it, lim := lim, m := m, n := n, dir := dir }

/-! ### Well-formedness -/

theorem test_wait_operand_too_wide : Instr.wellFormed (.wait 65536) = false := by decide
theorem test_smove_count_too_wide : Instr.wellFormed (.smove 1 65536) = false := by decide
theorem test_widest_operands : Instr.wellFormed (.wait 65535) = true ∧ Instr.wellFormed (.smove 15 65535) = true := by
  decide

/-! ### Decoding: words of 95_test_vectors.md section 2, bit by bit from 30_encoding.md R49 -/

theorem test_decode_tcfg : decode 0b00000000000000000000000011110001 = .cmd (.tcfg 15) := by decide
theorem test_decode_tstop : decode 0b00000000000000000000000000000010 = .cmd .tstop := by decide
theorem test_decode_wait : decode 0b11111111111111110000000000000011 = .cmd (.wait 65535) := by decide
theorem test_decode_einit : decode 0b00000000000000000000000000000100 = .cmd .einit := by decide
theorem test_decode_eread : decode 0b00000000000000000000000000000101 = .cmd .eread := by decide
theorem test_decode_sinit : decode 0b00000000000000000000000000000110 = .cmd .sinit := by decide
theorem test_decode_smove : decode 0b00000000110010000000000000010111 = .cmd (.smove 1 200) := by decide
theorem test_decode_smove_minus_eight : decode 0b00000000000000010000000010000111 = .cmd (.smove 8 1) := by decide

/-- Section 2.3: one illegal word for each reason. -/
theorem test_illegal_words :
    decode 0x00000000 = .illegal .reservedOpcode ∧ decode 0x00000008 = .illegal .reservedOpcode ∧
    decode 0x0000000F = .illegal .reservedOpcode ∧ decode 0x00000102 = .illegal .reservedBits ∧
    decode 0x00001007 = .illegal .reservedBits ∧ decode 0x00010002 = .illegal .immNotZero ∧
    decode 0x00010001 = .illegal .immNotZero ∧ decode 0x00000013 = .illegal .subNotZero ∧
    decode 0x00000014 = .illegal .subNotZero ∧ decode 0x00000025 = .illegal .subNotZero ∧
    decode 0x80000006 = .illegal .immNotZero := by decide

/-- 20_memory.md R37: the lowest address holds bits 7:0. -/
theorem test_decode_bytes : decodeBytes [0x03, 0x00, 0x02, 0x00] = .cmd (.wait 2) := by decide
theorem test_decode_short_word : decodeBytes [0x02] = .illegal .notOneWord := by decide
theorem test_decode_table_word : decodeTableWord 32 0x00010017 = some (.smove 1 1) := by decide

/-! ### Assembly: 95_test_vectors.md sections 2.1, 2.2, 2.4 -/

theorem test_assemble_wait : assembleLine "WAIT 0x2 ; settle".toList = .word 0x00020003 := by decide
theorem test_assemble_tcfg : assembleLine "TCFG fast".toList = .word 0x00000011 := by decide
theorem test_assemble_smove : assembleLine "SMOVE 1, -1".toList = .word 0x000100F7 := by decide
theorem test_assemble_pseudo :
    assembleLine "DELAY 5".toList = .word 0x00050003 ∧ assembleLine "TSTART".toList = .word 0x00000001 ∧
    assembleLine "CW 3".toList = .word 0x00030017 ∧ assembleLine "CCW 3".toList = .word 0x000300F7 := by decide
theorem test_assembler_errors :
    assembleLine "WAIT 65536".toList = .error ∧ assembleLine "SMOVE -1, +1".toList = .error ∧
    assembleLine "TCFG #16".toList = .error := by decide

/-! ### One step of each command -/

/-- Vector T1: CFG(slow) gives TCTRL = 0x0D. -/
theorem test_tcfg_slow : after (exec (.tcfg 0) (runAt r0 (.tcfg 0) 0 noLocals)) (fun t => tctrlWord t.tctrl) =
    some 0x0D := by decide
/-- Vector T7: strict mode rejects TCFG #2, STATUS = 0x1C2 (BUSY 0, RESULT 1). -/
theorem test_tcfg_rejected : after (exec (.tcfg 2) r0Strict) statusWord = some 0x1C2 := by decide
/-- Vector T11: STOP leaves GIE and PEND, TCTRL = 0x18. -/
theorem test_tstop_keeps_pending :
    after (exec .tstop (runAt (slowTimer r0 true) .tstop 0 noLocals)) (fun t => tctrlWord t.tctrl) = some 0x18 := by
  decide
/-- Vector T3: STOP at reset leaves TCTRL = 0x00. -/
theorem test_tstop_at_reset : after (exec .tstop (runAt r0 .tstop 0 noLocals)) (fun t => tctrlWord t.tctrl) =
    some 0 := by decide
/-- Vector W3: POLL reads 2 < 3 and stays at index 2. -/
theorem test_wait_polls_again :
    after (exec (.wait 3) (runAt { slowTimer r0 false with ticks := 2 } (.wait 3) 2 (localsWait 3))) (·.seq) =
      some (.run (.wait 3) 2 { localsWait 3 with v := 2 }) := by decide
/-- Vector W8: the high byte of TICKS = 0x0100 beside a stale low byte 0xFF reads 0x01FF, and POLL ends. -/
theorem test_wait_torn_read :
    after (exec (.wait 384) (runAt { slowTimer r0Bytes false with ticks := 0x0100 } (.wait 384) 4
      { localsWait 384 with v := 0xFF })) (·.seq) =
      some (.run (.wait 384) 5 { localsWait 384 with v := 0x01FF }) := by decide
/-- Section 5.1: only bits 1 and 0 change. -/
theorem test_einit_lines :
    after (exec .einit (runAt { r0 with portE := { ddr := 0xFF, out := 0x5A, pue := 0x00 } } .einit 0 noLocals))
      (·.portE) = some { ddr := 0xFC, out := 0x5A, pue := 0x03 } := by decide
/-- Section 5.1: EINIT leaves PREV. -/
theorem test_einit_keeps_prev :
    after (exec .einit (runAt { r0 with prev := 0b10 } .einit 0 noLocals)) (·.prev) = some 0b10 := by decide
/-- Section 5.2, row 11 to 10: the draw has A (bit 1) high and B (bit 0) low. -/
theorem test_eread_plus :
    after (exec .eread (runAt { r0 with draws := [0b00000010] } .eread 0 noLocals)) (fun t => (t.edelta, t.prev)) =
      some (.plus, 0b10) := by decide
/-- Section 5.4: output lines read their latch, whatever is drawn. -/
theorem test_eread_output_lines :
    after (exec .eread (runAt { r0 with portE := { ddr := 0x03, out := 0x02, pue := 0 }, draws := [0b01] } .eread 0
      noLocals)) (fun t => (t.edelta, t.prev)) = some (.plus, 0b10) := by decide
/-- Vector I2: SDIR turns 0xF0 into 0xFF. -/
theorem test_sinit_direction :
    after (exec .sinit (runAt { r0 with portS := { ddr := 0xF0, out := 0xA0, pue := 0 } } .sinit 0 noLocals))
      (·.portS.ddr) = some 0xFF := by decide
/-- Vector I3: SCLR, at index 6, turns 0xA1 into 0xA0. -/
theorem test_sinit_clears_lines :
    after (exec .sinit (runAt { r0 with portS := { ddr := 0x0F, out := 0xA1, pue := 0 } } .sinit 6 noLocals))
      (·.portS.out) = some 0xA0 := by decide
/-- Vector S13: with STEP_SHIFT = 4 the first micro-advance from S_OUT = 0x05 writes 0x25. -/
theorem test_smove_micro :
    after (exec (.smove 1 0) (runAt { State.resetWith { Params.default with stepShift := 4 } with
      portS := { ddr := 0, out := 0x05, pue := 0 } } (.smove 1 0) 0 (moveLocals 1 0 0 1 0 0b0001)))
      (·.portS.out) = some 0x25 := by decide
/-- Vector S8: an invalid direction writes nothing where INVALID_DIR_WRITES = false. -/
theorem test_smove_invalid_direction :
    after (exec (.smove 0 1) (runAt (State.resetWith { Params.default with invalidDirWrites := false }) (.smove 0 1) 0
      (moveLocals 0 1 0 2 0 0b0001))) (·.portS.out) = some 0x00 := by decide

/-! ### The other agents -/

/-- Vector T17: with TICK_W = 8, TICKS = 0xFF wraps to 0, and PEND is cleared (TCTRL = 0x0D). -/
theorem test_interrupt_wraps :
    after (step (withTurns { slowTimer r0Narrow true with ticks := 0xFF } [.isr]))
      (fun t => (t.ticks, tctrlWord t.tctrl)) = some (0, 0x0D) := by decide
/-- Vector T8: MATCH sets PEND (TCTRL = 0x1D). -/
theorem test_match_sets_pending :
    after (step (withTurns (slowTimer r0 false) [.compareMatch])) (fun t => tctrlWord t.tctrl) = some 0x1D := by decide
/-- Vector T15: at reset neither MATCH nor ISR is enabled. -/
theorem test_nothing_enabled_at_reset : matchEnabled r0.tctrl = false ∧ isrEnabled r0.tctrl = false := by decide
/-- Vectors F5 to F8: unmapped, misaligned, one byte wide, outside the window. -/
theorem test_bad_accesses :
    after (step (withTurns r0 [.host (.read 0x14 4)])) (·.faults.badAccess) = some true ∧
    after (step (withTurns r0 [.host (.read 0x02 4)])) (·.faults.badAccess) = some true ∧
    after (step (withTurns r0 [.host (.read 0x04 1)])) (·.faults.badAccess) = some true ∧
    after (step (withTurns r0 [.host (.read 0x40 4)])) (·.faults.badAccess) = some true := by decide
/-- Vectors F3 and F4: TICKS and TCTRL are read-only. -/
theorem test_read_only :
    after (step (withTurns r0 [.host (.write 0x0C 4 5)])) (fun t => (t.faults.roWrite, t.ticks)) = some (true, 0) ∧
    after (step (withTurns r0 [.host (.write 0x08 4 0x0D)])) (fun t => (t.faults.roWrite, tctrlWord t.tctrl)) =
      some (true, 0) := by decide
/-- Vectors F1 and F9: while a WAIT 3 runs a TSTOP is not accepted, and STATUS reads with bit 0 = 1. -/
theorem test_busy_host :
    after (step (withTurns (runAt r0 (.wait 3) 2 (localsWait 3)) [.host (.write 0x00 4 2)]))
      (fun t => (t.faults.cmdWhileBusy, t.seq)) = some (true, .run (.wait 3) 2 (localsWait 3)) ∧
    after (step (withTurns (runAt r0 (.wait 3) 2 (localsWait 3)) [.host (.read 0x04 4)])) (·.readData) =
      some (some 0xC1) := by decide
/-- Vector E5: the illegal word is found before the operand checks, STATUS = 0x1C8. -/
theorem test_illegal_before_operands :
    after (step (withTurns r0Strict [.host (.write 0x00 4 0x00001007)])) statusWord = some 0x1C8 := by decide
/-- Log 19: `withFetchWord` makes the next step accept the word. -/
theorem test_fetch_word :
    after (step (r0.withFetchWord 32 0x00030003)) (·.seq) = some (.run (.wait 3) 0 (localsWait 3)) := by decide
/-- Section 6: Merge with STEP_SHIFT = 2. -/
theorem test_merge : merge 2 0xFF 0b0100 = 0xD3 ∧ merge 4 0x0A 0b0001 = 0x1A := by decide

/-! ### Witnesses: states and operands that meet the hypotheses of each statement -/

/-- A step of `s` answers a next state: the hypothesis of the statements over all steps. -/
def goesOn (s : State) : Prop := ∃ t, step s = .next t

theorem test_witness_ResetIsQuiet :
    (withTurns r0 [.seq]).tctrl = (State.resetWith Params.default).tctrl ∧
    (withTurns r0 [.seq]).seq = (State.resetWith Params.default).seq := by decide

theorem test_witness_DecodeOfEncode :
    Instr.wellFormed (.tcfg 15) = true ∧ Instr.wellFormed .tstop = true ∧ Instr.wellFormed (.wait 0) = true ∧
    Instr.wellFormed (.wait 65535) = true ∧ Instr.wellFormed .einit = true ∧ Instr.wellFormed .eread = true ∧
    Instr.wellFormed .sinit = true ∧ Instr.wellFormed (.smove 15 65535) = true := by decide

theorem test_witness_EncodeOfDecode :
    decode 0xFFFF00F7 = .cmd (.smove 15 65535) ∧ decode 0xFFFF0003 = .cmd (.wait 65535) := by decide

/-- Each disjunct, at its boundary: OP = 0, OP = 8, RSV, SUB, IMM; OP = 7 with every operand bit set is legal. -/
theorem test_witness_IllegalWords :
    decode 0x00000000 = .illegal .reservedOpcode ∧ decode 0x00000008 = .illegal .reservedOpcode ∧
    decode 0x00000101 = .illegal .reservedBits ∧ decode 0x00000016 = .illegal .subNotZero ∧
    decode 0x00010006 = .illegal .immNotZero ∧ decode 0xFFFF00F7 = .cmd (.smove 15 65535) ∧
    r0.seq = .idle ∧ r0Strict.seq = .idle := by decide

theorem test_witness_CommandWriteRunsCommand :
    r0.seq = .idle ∧ decode 0x00000002 = .cmd .tstop ∧
    (withTurns r0 [writeCommand r0 0x00000002]).agenda = writeCommand r0 0x00000002 :: [] := by decide

theorem test_witness_SequencerTurnRunsCommand :
    (withTurns (runAt r0 .tstop 0 noLocals) [.seq]).agenda = .seq :: [] ∧
    (withTurns (runAt r0 .tstop 0 noLocals) [.seq]).seq = .run .tstop 0 noLocals ∧
    (withTurns r0 [.seq]).agenda = .seq :: [] ∧ (withTurns r0 [.seq]).seq = .idle := by decide

/-- In compatible mode every operand; in strict mode the boundary operands. -/
theorem test_witness_AcceptanceStartsCommand :
    r0.seq = .idle ∧ rejectOf r0.cfg (.smove 0 0) = none ∧ rejectOf r0.cfg (.tcfg 15) = none ∧
    r0Strict.seq = .idle ∧ rejectOf r0Strict.cfg (.smove 15 1) = none ∧ rejectOf r0Strict.cfg (.tcfg 1) = none ∧
    rejectOf r0Strict.cfg (.wait 0) = none := by decide

/-- The three rejections at their boundaries, and compatible mode. -/
theorem test_witness_StrictValidation :
    r0Strict.seq = .idle ∧ r0Strict.cfg.seqMode = .strict ∧ (2#4 ≠ 0#4 ∧ 2#4 ≠ 1#4) ∧ (0#4 ≠ 1#4 ∧ 0#4 ≠ 15#4) ∧
    (14#4 ≠ 1#4 ∧ 14#4 ≠ 15#4) ∧ (15#4 = 1#4 ∨ 15#4 = 15#4) ∧ r0.seq = .idle ∧ r0.cfg.seqMode = .compatible := by
  decide

theorem test_witness_SmoveStartsAtPhaseInit :
    r0.seq = .idle ∧ r0.cfg.seqMode = .compatible ∧
    r0Strict.seq = .idle ∧ r0Strict.cfg.seqMode = .strict ∧ ((15#4 = 1#4 ∨ 15#4 = 15#4) ∧ 0 < 1) := by decide

/-- Every command has its Done, whichever its μ-program. -/
theorem test_witness_DoneEndsCommand :
    (progOf r0.cfg (.tcfg 0)).length - 1 = 1 ∧ (progOf r0.cfg (.tcfg 2)).length - 1 = 0 ∧
    (progOf r0.cfg .tstop).length - 1 = 1 ∧ (progOf r0.cfg (.wait 3)).length - 1 = 4 ∧
    (progOf r0Bytes.cfg (.wait 3)).length - 1 = 6 ∧ (progOf r0.cfg .einit).length - 1 = 1 ∧
    (progOf r0.cfg .eread).length - 1 = 1 ∧ (progOf r0.cfg .sinit).length - 1 = 7 ∧
    (progOf r0.cfg (.smove 1 0)).length - 1 = 5 ∧
    (runAt r0 .sinit 7 noLocals).seq = .run .sinit ((progOf r0.cfg .sinit).length - 1) noLocals := by decide

theorem test_witness_TcfgConfiguresTimer :
    (runAt r0 (.tcfg 0) 0 noLocals).seq = .run (.tcfg 0) 0 noLocals ∧ (0#4 = 0#4 ∨ 0#4 = 1#4) ∧
    (runAt r0 (.tcfg 1) 0 noLocals).seq = .run (.tcfg 1) 0 noLocals ∧ (1#4 = 0#4 ∨ 1#4 = 1#4) := by decide

theorem test_witness_TcfgInvalidModeIsNoOp :
    r0.seq = .idle ∧ r0.cfg.seqMode = .compatible ∧ 2#4 ≠ 0#4 ∧ 2#4 ≠ 1#4 := by decide

theorem test_witness_TstopStopsTimer :
    (runAt (slowTimer r0 true) .tstop 0 noLocals).seq = .run .tstop 0 noLocals := by decide

theorem test_witness_TstopIsIdempotent : (slowTimer r0 true).seq = .idle := by decide

/-- Each command that waits; atomic and byte-wise, the last byte. -/
theorem test_witness_WaitClearsTicks :
    waitDuration (.wait 3) = some 3 ∧ 0 < accessSteps r0.cfg ∧ r0.cfg.tickAtomic = true ∧
    (runAt r0 (.wait 3) 0 (localsWait 3)).seq = .run (.wait 3) (waitStart (.wait 3) + 0) (localsWait 3) ∧
    waitDuration .sinit = some 2 ∧ 1 < accessSteps r0Bytes.cfg ∧ r0Bytes.cfg.tickAtomic = false ∧
    (runAt r0Bytes .sinit 3 noLocals).seq = .run .sinit (waitStart .sinit + 1) noLocals ∧
    waitDuration (.smove 1 0) = some 2 ∧
    (runAt r0 (.smove 1 0) 1 noLocals).seq = .run (.smove 1 0) (waitStart (.smove 1 0) + 0) noLocals := by decide

theorem test_witness_WaitConfiguresSlow :
    waitDuration (.wait 0) = some 0 ∧
    (runAt r0 (.wait 0) 1 (localsWait 0)).seq =
      .run (.wait 0) (waitStart (.wait 0) + accessSteps r0.cfg) (localsWait 0) ∧
    (runAt r0Bytes .sinit 4 noLocals).seq = .run .sinit (waitStart .sinit + accessSteps r0Bytes.cfg) noLocals := by
  decide

/-- Atomic POLL at v = d and at v = d − 1; the first and the last byte of a byte-wise POLL. -/
theorem test_witness_WaitPolls :
    waitDuration (.wait 3) = some 3 ∧ 0 < accessSteps r0.cfg ∧
    (runAt r0 (.wait 3) 2 (localsWait 3)).seq =
      .run (.wait 3) (waitStart (.wait 3) + accessSteps r0.cfg + 1 + 0) (localsWait 3) ∧
    after (exec (.wait 3) (runAt { r0 with ticks := 3 } (.wait 3) 2 (localsWait 3))) (·.seq) =
      some (.run (.wait 3) 3 { localsWait 3 with v := 3 }) ∧
    after (exec (.wait 3) (runAt { r0 with ticks := 2 } (.wait 3) 2 (localsWait 3))) (·.seq) =
      some (.run (.wait 3) 2 { localsWait 3 with v := 2 }) ∧
    0 + 1 < accessSteps r0Bytes.cfg ∧ ¬ 1 + 1 < accessSteps r0Bytes.cfg ∧
    (runAt r0Bytes (.wait 3) 3 (localsWait 3)).seq =
      .run (.wait 3) (waitStart (.wait 3) + accessSteps r0Bytes.cfg + 1 + 0) (localsWait 3) := by decide

/-- SMOVE with an iteration left and with none, and WAIT. -/
theorem test_witness_WaitStopsTimer :
    waitDuration (.smove 1 1) = some 2 ∧ waitDuration (.wait 3) = some 3 ∧
    (runAt r0 (.smove 1 1) 4 (moveLocals 1 1 1 2 0 2)).seq =
      .run (.smove 1 1) (waitStart (.smove 1 1) + 2 * accessSteps r0.cfg + 1) (moveLocals 1 1 1 2 0 2) ∧
    (moveLocals 1 1 1 2 0 2).it < (moveLocals 1 1 1 2 0 2).lim ∧
    ¬ (moveLocals 1 1 2 2 0 4).it < (moveLocals 1 1 2 2 0 4).lim ∧
    (runAt r0 (.wait 3) 3 (localsWait 3)).seq =
      .run (.wait 3) (waitStart (.wait 3) + 2 * accessSteps r0.cfg + 1) (localsWait 3) := by decide

/-- d = 0, and the largest d of TICK_W = 8. -/
theorem test_witness_WaitUnderReferenceSchedule :
    r0.seq = .idle ∧ r0.cfg.tickAtomic = true ∧ 0 < 2 ^ r0.cfg.tickW.bits ∧ 0 < 65536 ∧
    r0Narrow.seq = .idle ∧ r0Narrow.cfg.tickAtomic = true ∧ 255 < 2 ^ r0Narrow.cfg.tickW.bits := by decide

/-- The timer running, and stopped. -/
theorem test_witness_CompareMatchSetsPending :
    (withTurns (slowTimer r0 false) [.compareMatch]).agenda = .compareMatch :: [] ∧
    (slowTimer r0 false).tctrl.mode ≠ .off ∧ (withTurns r0 [.compareMatch]).agenda = .compareMatch :: [] ∧
    r0.tctrl.mode = .off := by decide

/-- The interrupt enabled, and not pending. -/
theorem test_witness_InterruptCountsTick :
    (withTurns (slowTimer r0 true) [.isr]).agenda = .isr :: [] ∧
    ((slowTimer r0 true).tctrl.pend = true ∧ (slowTimer r0 true).tctrl.tie = true ∧
      (slowTimer r0 true).tctrl.gie = true) ∧
    ¬ ((slowTimer r0 false).tctrl.pend = true ∧ (slowTimer r0 false).tctrl.tie = true ∧
      (slowTimer r0 false).tctrl.gie = true) := by decide

/-- A PREV and a sample outside the two nonzero rows. -/
theorem test_witness_QuadratureTable :
    ¬ (0b10#2 = 0b11#2 ∧ 0b01#2 = 0b10#2) ∧ ¬ (0b10#2 = 0b11#2 ∧ 0b01#2 = 0b01#2) := by decide

/-- Both encoder bits and a bit that is neither. -/
theorem test_witness_EinitConfiguresLines :
    (runAt r0 .einit 0 noLocals).seq = .run .einit 0 noLocals ∧ (0 = r0.cfg.encA.val ∨ 0 = r0.cfg.encB.val) ∧
    (1 = r0.cfg.encA.val ∨ 1 = r0.cfg.encB.val) ∧ ¬ (7 = r0.cfg.encA.val ∨ 7 = r0.cfg.encB.val) := by decide

theorem test_witness_EreadSamplesAndDecodes :
    (runAt r0 .eread 0 noLocals).seq = .run .eread 0 noLocals := by decide

theorem test_witness_EreadOffDetentReportsZero :
    ({ r0 with prev := 0b10 } : State).seq = .idle ∧ ({ r0 with prev := 0b10 } : State).prev ≠ 0b11#2 := by decide

/-- The window's end bit, and a direction that is neither +1 nor −1. -/
theorem test_witness_AdvanceRotates : 3 < 4 ∧ 7#4 ≠ 1#4 ∧ 7#4 ≠ 15#4 := by decide

/-- SDIR, SPAT and SCLR; the stepper bits 0 and 3, and bit 4, which is none. -/
theorem test_witness_SinitDrivesLines :
    (runAt r0 .sinit 0 noLocals).seq = .run .sinit 0 noLocals ∧
    (runAt r0 .sinit 1 noLocals).seq = .run .sinit 1 noLocals ∧
    (runAt r0 .sinit 6 noLocals).seq = .run .sinit 6 noLocals ∧ 6 = 2 * accessSteps r0.cfg + 4 ∧
    (r0.cfg.stepShift.val ≤ 0 ∧ 3 < r0.cfg.stepShift.val + 4) ∧ ¬ 4 < r0.cfg.stepShift.val + 4 := by decide

/-- The first and the last μ-step of the settle wait, atomic and byte-wise. -/
theorem test_witness_SinitSettlesAsWait :
    0 < 2 * accessSteps r0.cfg + 2 ∧ 3 < 2 * accessSteps r0.cfg + 2 ∧ 5 < 2 * accessSteps r0Bytes.cfg + 2 := by decide

theorem test_witness_SinitUnderReferenceSchedule : r0.seq = .idle ∧ r0.cfg.tickAtomic = true := by decide

/-- The fourth and the fifth micro-advance. -/
theorem test_witness_SmoveMicroAdvances :
    (runAt r0 (.smove 1 0) 0 (moveLocals 1 0 0 1 3 8)).seq = .run (.smove 1 0) 0 (moveLocals 1 0 0 1 3 8) ∧
    (moveLocals 1 0 0 1 3 8).m + 1 < 5 ∧ ¬ (moveLocals 1 0 0 1 4 1).m + 1 < 5 ∧
    (runAt r0 (.smove 1 0) 0 (moveLocals 1 0 0 1 4 1)).seq = .run (.smove 1 0) 0 (moveLocals 1 0 0 1 4 1) := by decide

/-- The smallest limit of each mode. -/
theorem test_witness_SmoveUnderReferenceSchedule :
    r0.seq = .idle ∧ r0.cfg.tickAtomic = true ∧ 0 < 65536 ∧ rejectOf r0.cfg (.smove 0 0) = none ∧
    1 = iterationLimit r0.cfg.seqMode 0 ∧ r0Strict.seq = .idle ∧ r0Strict.cfg.tickAtomic = true ∧
    rejectOf r0Strict.cfg (.smove 15 1) = none ∧ 1 = iterationLimit r0Strict.cfg.seqMode 1 := by decide

/-- Vector S1 at its Done: one iteration made, S_OUT = 0x02. -/
def moveDone : State :=
  runAt { r0 with portS := { ddr := 0x0F, out := 0x02, pue := 0 } } (.smove 1 0) 5 (moveLocals 1 0 1 1 0 0b0010)

theorem test_moveDone_onTrack : moveDone.smoveOnTrack := by
  intro dir n i L h
  cases h
  decide

theorem test_witness_SmoveEndsAtPhase :
    moveDone.smoveOnTrack ∧ validDirection 1 = true ∧
    moveDone.seq = .run (.smove 1 0) ((progOf moveDone.cfg (.smove 1 0)).length - 1) (moveLocals 1 0 1 1 0 0b0010) :=
  ⟨test_moveDone_onTrack, by decide, by decide⟩

/-- Each disjunct at its boundary: width, below the base, alignment, past the window, and both ends of the hole; a mapped
offset beside each boundary is no bad access. -/
theorem test_witness_BadAccessRaisesFault :
    (withTurns r0 [.host (.read 0x14 4)]).agenda = .host (.read 0x14 4) :: [] ∧ 3 ≠ 4 ∧
    0x3F < ({ Params.default with blockBase := 0x40 } : Params).blockBase ∧ (0x3F - r0.cfg.blockBase) % 4 ≠ 0 ∧
    r0.cfg.blockBase + 0x3F < 0x40 ∧ (r0.cfg.blockBase + 0x14 ≤ 0x14 ∧ 0x1C ≤ r0.cfg.blockBase + 0x1F) ∧
    regOfAccess r0.cfg 0x10 4 = some .tcomp ∧ regOfAccess r0.cfg 0x20 4 = some .sDdr ∧
    regOfAccess r0.cfg 0x3C 4 = some .ePin := by decide

theorem test_witness_ReadOnlyWriteRaisesFault :
    0x04 ∈ [0x04, 0x08, 0x0C, 0x10, 0x2C, 0x3C] ∧ 0x3C ∈ [0x04, 0x08, 0x0C, 0x10, 0x2C, 0x3C] ∧
    (withTurns r0 [.host (.write 0x3C 4 1)]).agenda = .host (.write (r0.cfg.blockBase + 0x3C) 4 1) :: [] := by decide

/-- CMD, and the first and the last port register. -/
theorem test_witness_BusyWritesRaiseFaults :
    (∃ c i L, (runAt r0 .tstop 0 noLocals).seq = .run c i L) ∧ 0x20 ∈ [0x20, 0x24, 0x28, 0x30, 0x34, 0x38] ∧
    0x38 ∈ [0x20, 0x24, 0x28, 0x30, 0x34, 0x38] ∧
    (withTurns (runAt r0 .tstop 0 noLocals) [.host (.write 0x38 4 1)]).agenda =
      .host (.write (r0.cfg.blockBase + 0x38) 4 1) :: [] ∧
    (withTurns (runAt r0 .tstop 0 noLocals) [.host (.write 0 4 1)]).agenda =
      .host (.write (r0.cfg.blockBase + 0x00) 4 1) :: [] :=
  ⟨⟨_, _, _, rfl⟩, by decide, by decide, by decide, by decide⟩

/-- Each port register: the value's bits above 7 are dropped. -/
theorem test_witness_IdlePortWrites :
    r0.seq = .idle ∧ (0xA5 : Byte) = (0xFFFFFFA5 : Word).setWidth 8 ∧
    ∀ off ∈ [0x20, 0x24, 0x28, 0x30, 0x34, 0x38],
      (withTurns r0 [.host (.write off 4 0xFFFFFFA5)]).agenda =
        .host (.write (r0.cfg.blockBase + off) 4 0xFFFFFFA5) :: [] := by decide

/-- Every stored register, from a state whose registers differ. -/
theorem test_witness_RegisterReads :
    ∀ off ∈ [0x00, 0x04, 0x08, 0x0C, 0x10, 0x20, 0x24, 0x28, 0x30, 0x34, 0x38],
      (withTurns (slowTimer r0 true) [.host (.read off 4)]).agenda = .host (.read (r0.cfg.blockBase + off) 4) :: [] := by
  decide

/-- Both pin registers. -/
theorem test_witness_PinReads :
    (withTurns r0 [.host (.read 0x2C 4)]).agenda = .host (.read (r0.cfg.blockBase + 0x2C) 4) :: [] ∧
    (0x2C = 0x2C ∧ r0.portS = r0.portS ∨ 0x2C = 0x3C ∧ r0.portS = r0.portE) ∧
    (withTurns r0 [.host (.read 0x3C 4)]).agenda = .host (.read (r0.cfg.blockBase + 0x3C) 4) :: [] ∧
    (0x3C = 0x2C ∧ r0.portE = r0.portS ∨ 0x3C = 0x3C ∧ r0.portE = r0.portE) := by decide

/-- Each command of the family makes a step, at its first μ-operation; and where another command runs. -/
theorem test_witness_TimerCommandsFrame :
    (∃ t, exec (.tcfg 1) (runAt r0 (.tcfg 1) 0 noLocals) = .next t) ∧
    (∃ t, exec .tstop (runAt r0 .tstop 0 noLocals) = .next t) ∧
    (∃ t, exec (.wait 3) (runAt r0 (.wait 3) 0 (localsWait 3)) = .next t) ∧
    (∃ t, exec .tstop (runAt r0 (.wait 3) 0 (localsWait 3)) = .next t) :=
  ⟨⟨_, rfl⟩, ⟨_, rfl⟩, ⟨_, rfl⟩, ⟨_, rfl⟩⟩

theorem test_witness_EncoderCommandsFrame :
    (∃ t, exec .einit (runAt r0 .einit 0 noLocals) = .next t) ∧
    (∃ t, exec .eread (runAt r0 .eread 0 noLocals) = .next t) ∧
    (7 ≠ r0.cfg.encA.val ∧ 7 ≠ r0.cfg.encB.val) :=
  ⟨⟨_, rfl⟩, ⟨_, rfl⟩, by decide⟩

theorem test_witness_StepperCommandsFrame :
    (∃ t, exec .sinit (runAt r0 .sinit 1 noLocals) = .next t) ∧
    (∃ t, exec (.smove 1 0) (runAt r0 (.smove 1 0) 0 (moveLocals 1 0 0 1 0 1)) = .next t) ∧
    ¬ (r0.cfg.stepShift.val ≤ 4 ∧ 4 < r0.cfg.stepShift.val + 4) :=
  ⟨⟨_, rfl⟩, ⟨_, rfl⟩, by decide⟩

theorem test_witness_ParametersNeverChange : goesOn (withTurns (runAt r0 .tstop 0 noLocals) [.seq]) := ⟨_, rfl⟩

/-- A fault already recorded, and a step that adds one. -/
theorem test_witness_FaultsNeverCleared :
    goesOn (withTurns (r0.raise .roWrite) [.host (.read 0x14 4)]) ∧ (r0.raise .roWrite).faults.has .roWrite = true ∧
    (r0.raise .roWrite).faults.isEmpty = false ∧
    after (step (withTurns r0 [.host (.read 0x14 4)])) (fun t => decide (t.faults ≠ r0.faults)) = some true :=
  ⟨⟨_, rfl⟩, by decide, by decide, by decide⟩

theorem test_witness_GieNeverCleared :
    goesOn (withTurns (runAt (slowTimer r0 true) .tstop 0 noLocals) [.seq]) ∧ (slowTimer r0 true).tctrl.gie = true :=
  ⟨⟨_, rfl⟩, by decide⟩

/-- A step that sets PEND, and one that clears it. -/
theorem test_witness_PendingWriters :
    after (step (withTurns (slowTimer r0 false) [.compareMatch])) (·.tctrl.pend) = some true ∧
    after (step (withTurns (slowTimer r0 true) [.isr])) (·.tctrl.pend) = some false := by decide

/-- TICKS written by an interrupt, by CLEAR and by a byte of CLEAR. -/
theorem test_witness_TicksWriters :
    after (step (withTurns { slowTimer r0 true with ticks := 5 } [.isr])) (·.ticks) = some 6 ∧
    after (step (withTurns (runAt { r0 with ticks := 5 } (.wait 0) 0 (localsWait 0)) [.seq])) (·.ticks) = some 0 ∧
    after (step (withTurns (runAt { r0Bytes with ticks := 0x105 } (.wait 0) 0 (localsWait 0)) [.seq])) (·.ticks) =
      some 0x100 := by decide

theorem test_witness_DecoderWriters :
    after (step (withTurns (runAt { r0 with draws := [0b10] } .eread 0 noLocals) [.seq]))
      (fun t => decide (t.prev ≠ r0.prev ∨ t.edelta ≠ r0.edelta)) = some true := by decide

theorem test_witness_UnownedPortBitsKept :
    goesOn (withTurns (runAt r0 .sinit 1 noLocals) [.seq]) ∧
    (∀ a, (withTurns (runAt r0 .sinit 1 noLocals) [.seq]).nextEvent ≠ .host a) :=
  ⟨⟨_, rfl⟩, by intro a h; cases h⟩

theorem test_witness_EveryTurnGoesOn : (runAt r0 .tstop 1 noLocals).sequencerInProgram := by
  intro c i L h
  cases h
  decide

theorem test_witness_TieImpliesRunningInvariant :
    (slowTimer r0 true).tieImpliesRunning ∧ goesOn (withTurns (runAt (slowTimer r0 true) .tstop 0 noLocals) [.seq]) :=
  ⟨by unfold State.tieImpliesRunning; decide, ⟨_, rfl⟩⟩

/-- The largest TICKS of TICK_W = 8, at the tick that wraps it. -/
theorem test_witness_TicksRangeInvariant :
    ({ slowTimer r0Narrow true with ticks := 0xFF } : State).ticksInRange ∧
    goesOn (withTurns { slowTimer r0Narrow true with ticks := 0xFF } [.isr]) :=
  ⟨by unfold State.ticksInRange; decide, ⟨_, rfl⟩⟩

theorem test_witness_SequencerPositionInvariant :
    (withTurns (runAt r0 .tstop 1 noLocals) [.seq]).sequencerInProgram ∧
    goesOn (withTurns (runAt r0 .tstop 1 noLocals) [.seq]) :=
  ⟨by intro c i L h; cases h; decide, ⟨_, rfl⟩⟩

/-- Vector W3 at its STOP; and vector S4 in its second iteration, at MICRO and at CLEAR, the timer stopped. -/
theorem test_witness_WaitTimerInvariant :
    ((withTurns (runAt (slowTimer r0 false) (.wait 3) 3 { localsWait 3 with v := 3 }) [.seq]).waitOnTrack ∧
      goesOn (withTurns (runAt (slowTimer r0 false) (.wait 3) 3 { localsWait 3 with v := 3 }) [.seq])) ∧
    ((withTurns (runAt r0 (.smove 1 3) 0 (moveLocals 1 3 1 4 4 0b0010)) [.seq]).waitOnTrack ∧
      goesOn (withTurns (runAt r0 (.smove 1 3) 0 (moveLocals 1 3 1 4 4 0b0010)) [.seq])) ∧
    ((withTurns (runAt r0 (.smove 1 3) 1 (moveLocals 1 3 2 4 0 0b0100)) [.seq]).waitOnTrack ∧
      goesOn (withTurns (runAt r0 (.smove 1 3) 1 (moveLocals 1 3 2 4 0 0b0100)) [.seq])) := by
  refine ⟨⟨?_, ⟨_, rfl⟩⟩, ⟨?_, ⟨_, rfl⟩⟩, ⟨?_, ⟨_, rfl⟩⟩⟩ <;> intro c i L d op h hd hop <;> cases h <;> cases hd <;>
    cases hop <;> simp only [waitFacts, TimerControl.stopped] <;> decide

theorem test_witness_SmovePhaseInvariant :
    (withTurns moveDone [.seq]).smoveOnTrack ∧ goesOn (withTurns moveDone [.seq]) :=
  ⟨test_moveDone_onTrack, ⟨_, rfl⟩⟩

/-- Vector I1 at its SCLR: the lines are outputs and show the pattern 0001. -/
theorem test_witness_SinitLinesInvariant :
    (withTurns (runAt { r0 with portS := { ddr := 0x0F, out := 0x01, pue := 0 } } .sinit 6 noLocals) [.seq]).sinitOnTrack ∧
    goesOn (withTurns (runAt { r0 with portS := { ddr := 0x0F, out := 0x01, pue := 0 } } .sinit 6 noLocals) [.seq]) :=
  ⟨by intro i L h; cases h; decide, ⟨_, rfl⟩⟩

/-- Vector W9: TICK_W = 8 and WAIT 256, before it and while it polls. -/
theorem test_witness_WaitTooLongNeverEnds :
    r0Narrow.seq = .idle ∧ 2 ^ r0Narrow.cfg.tickW.bits ≤ 256 ∧
    (runAt (slowTimer r0Narrow false) (.wait 256) 2 (localsWait 256)).waitsForever :=
  ⟨by decide, by decide, 256, 2, localsWait 256, rfl, by decide, rfl, by decide, by decide⟩

end Sys2Proof.Tests
end

namespace Sys2Proof.Machine

/-! SUPPORT. The state's own statements: the reset values and the end of a command (10_state.md R12, R28). -/

/-! ### Reset -/

/-- 10_state.md R26, R28: FAULTS is empty at reset. -/
theorem State.resetWith_hasNoFault (p : Params) (f : FaultName) : (State.resetWith p).faults.has f = false := by
  cases f <;> rfl

/-- At reset STATUS holds STRICT and ENC_PREV = 11, its other fields are 0 (10_state.md R13, R28). -/
theorem statusWord_resetWith (p : Params) :
    statusWord (State.resetWith p) =
      0#23 ++ BitVec.ofBool (strictBit p.seqMode) ++ 0b11#2 ++ 0b00#2 ++ 0b000#3 ++ 0#1 :=
  rfl

/-- The value the host reads from STATUS at reset (10_state.md R13, R28). -/
theorem statusWord_resetWith_toNat (p : Params) :
    (statusWord (State.resetWith p)).toNat = if p.seqMode = .strict then 0x1C0 else 0xC0 := by
  rw [statusWord_resetWith]
  cases p.seqMode with
  | compatible => rfl
  | strict => rfl

/-- Settles O1: the stored fields by the definition of reset, FAULTS and STATUS by their lemmas. -/
theorem resetState : Obligations.ResetState := by
  intro p
  exact ⟨rfl, rfl, rfl, rfl, rfl, rfl, rfl, rfl, rfl, State.resetWith_hasNoFault p, statusWord_resetWith_toNat p⟩

/-! ### The end of a command -/

/-- While SEQ runs a command, its next μ-operation is the one at its index (10_state.md R11). -/
theorem nextOp_running {c : Instr} {i : Nat} {L : Locals} {s : State} (h : s.seq = .run c i L) :
    nextOp s = (progOf s.cfg c)[i]? := by
  simp only [nextOp, h]

/-- The μ-step of `Done(code)` is the end of the command, whatever the command, index and locals (10_state.md R12). -/
theorem microStep_done (code : ResultCode) (c : Instr) (i : Nat) (L : Locals) (s : State) :
    microStep (.done code) c i L s = s.finish code :=
  rfl

/-- Settles O13: `progOf_done` finds Done(0) at the last index, and one μ-step of it finishes the command. -/
theorem doneEndsCommand : Obligations.DoneEndsCommand := by
  intro c s L hrun
  have hdone := progOf_done s.cfg c
  constructor
  · rw [nextOp_running hrun, hdone]
  · rw [exec_running hrun hdone, microStep_done, State.finish]

end Sys2Proof.Machine

namespace Sys2Proof.Machine

/-! SUPPORT. Host writes of the register window: the register a write reaches, what a write of each kind of register does,
and the three statements about them (20_memory.md R30 to R36). -/

/-! ### The host's turn -/

/-- A host turn at the head of the agenda makes that access, the turn taken out and `readData` emptied (logs 6, 15). -/
theorem step_host {s : State} {a : HostAccess} {rest : List Event} (h : s.agenda = .host a :: rest) :
    step s = hostAccess a { s with agenda := rest, readData := none } := by
  simp only [step, State.nextEvent, State.afterEvent, h, agentTurn]

/-- A 4-byte access at BLOCK_BASE plus an offset reaches the register at that offset (20_memory.md R30, R31). -/
@[simp] theorem regOfAccess_blockBase_add (p : Params) (off : Nat) :
    regOfAccess p (p.blockBase + off) 4 = regAtOffset off := by
  simp [regOfAccess]

/-- A turn in which the host writes a mapped register is that register's `hostWrite`. -/
theorem step_hostWrite {s : State} {off : Nat} {v : Word} {rest : List Event} {r : Reg}
    (h : s.agenda = .host (.write (s.cfg.blockBase + off) 4 v) :: rest) (hr : regAtOffset off = some r) :
    step s = hostWrite r v { s with agenda := rest, readData := none } := by
  simp only [step_host h, hostAccess, regOfAccess_blockBase_add, hr]

/-! ### Writes by kind of register -/

/-- The registers that R33 makes read-only; the two pin registers are among them (20_memory.md R33, log 28). -/
def readOnlyRegs : List Reg := [.status, .tctrl, .ticks, .tcomp, .sPin, .ePin]

/-- The port registers that can be written while Idle (20_memory.md R36, log 28). -/
def portRegs : List Reg := [.sDdr, .sOut, .sPue, .eDdr, .eOut, .ePue]

/-- The offsets of the read-only registers (20_memory.md R30). -/
theorem regAtOffset_readOnly :
    ∀ off ∈ [0x04, 0x08, 0x0C, 0x10, 0x2C, 0x3C], ∃ r ∈ readOnlyRegs, regAtOffset off = some r := by
  decide

/-- The offsets of the writable port registers (20_memory.md R30). -/
theorem regAtOffset_port :
    ∀ off ∈ [0x20, 0x24, 0x28, 0x30, 0x34, 0x38], ∃ r ∈ portRegs, regAtOffset off = some r := by
  decide

/-- A read-only register's write raises RO_WRITE, whatever SEQ does (20_memory.md R33). -/
theorem hostWrite_readOnly {r : Reg} (hr : r ∈ readOnlyRegs) (v : Word) (s : State) :
    hostWrite r v s = .next (s.raise .roWrite) := by
  simp only [readOnlyRegs, List.mem_cons, List.not_mem_nil, or_false] at hr
  rcases hr with rfl | rfl | rfl | rfl | rfl | rfl <;> rfl

/-- `busy` where SEQ runs a command (10_state.md R13). -/
theorem State.busy_of_run {s : State} (h : ∃ c i L, s.seq = .run c i L) : s.busy = true := by
  obtain ⟨c, i, L, hrun⟩ := h
  simp [State.busy, hrun]

/-- While busy, a write of CMD is refused (20_memory.md R34). -/
theorem hostWrite_cmd_busy {s : State} (h : s.busy = true) (v : Word) :
    hostWrite .cmd v s = .next (s.raise .cmdWhileBusy) := by
  simp only [hostWrite, h, if_true]

/-- While busy, a write of a port register is refused, whatever it would put (20_memory.md R34). -/
theorem State.hostPortWrite_busy {s : State} (h : s.busy = true) (put : State → State) :
    s.hostPortWrite put = s.raise .hostWriteWhileBusy :=
  if_pos h

/-- While Idle, a write of a port register puts its value (20_memory.md R36). -/
theorem State.hostPortWrite_idle {s : State} (h : s.seq = .idle) (put : State → State) :
    s.hostPortWrite put = put s := by
  simp [State.hostPortWrite, State.busy_eq_false.mpr h]

/-- While busy, a write of any of the six port registers raises HOST_WRITE_WHILE_BUSY (20_memory.md R34). -/
theorem hostWrite_port_busy {r : Reg} (hr : r ∈ portRegs) {s : State} (h : s.busy = true) (v : Word) :
    hostWrite r v s = .next (s.raise .hostWriteWhileBusy) := by
  simp only [portRegs, List.mem_cons, List.not_mem_nil, or_false] at hr
  rcases hr with rfl | rfl | rfl | rfl | rfl | rfl <;> simp only [hostWrite, State.hostPortWrite_busy h]

/-- A turn in which the host writes a port register while SEQ is Idle puts the register's value (20_memory.md R36). -/
theorem step_portWrite_idle {s : State} {off : Nat} {v : Word} {rest : List Event} {r : Reg} {put : State → State}
    (hidle : s.seq = .idle) (h : s.agenda = .host (.write (s.cfg.blockBase + off) 4 v) :: rest)
    (hr : regAtOffset off = some r) (hput : ∀ t, hostWrite r v t = .next (t.hostPortWrite put)) :
    step s = .next (put { s with agenda := rest, readData := none }) := by
  have hseq : ({ s with agenda := rest, readData := none } : State).seq = .idle := hidle
  rw [step_hostWrite h hr, hput, State.hostPortWrite_idle hseq]

/-! ### The statements -/

/-- Settles O38: each of the six offsets holds a read-only register, whose write is `hostWrite_readOnly`. -/
theorem readOnlyWriteRaisesFault : Obligations.ReadOnlyWriteRaisesFault := by
  intro s off v rest hoff hturn
  obtain ⟨r, hro, hr⟩ := regAtOffset_readOnly off hoff
  exact (step_hostWrite hturn hr).trans (hostWrite_readOnly hro v _)

/-- Settles O39: CMD stands at offset 0 and a port register at each of the six others; both refuse a write while busy. -/
theorem busyWritesRaiseFaults : Obligations.BusyWritesRaiseFaults := by
  intro s off v rest hrun hturn
  have hbusy : ({ s with agenda := rest, readData := none } : State).busy = true := State.busy_of_run hrun
  constructor
  · rintro rfl
    exact (step_hostWrite hturn rfl).trans (hostWrite_cmd_busy hbusy v)
  · intro hoff
    obtain ⟨r, hport, hr⟩ := regAtOffset_port off hoff
    exact (step_hostWrite hturn hr).trans (hostWrite_port_busy hport hbusy v)

/-- Settles O40: at each of the six offsets, `hostWrite` is a port write that puts `v[7:0]`, which is made while Idle. -/
theorem idlePortWrites : Obligations.IdlePortWrites := by
  rintro s off v _ rest hidle rfl hturn
  refine ⟨?_, ?_, ?_, ?_, ?_, ?_⟩ <;> rintro rfl <;> exact step_portWrite_idle hidle hturn rfl fun _ => rfl

end Sys2Proof.Machine

namespace Sys2Proof

/-! SUPPORT. Which words the decoder refuses (30_encoding.md R54, R55). -/

/-- One check of the decoder: the word is illegal when the check fails, or when what follows refuses it. -/
@[simp] theorem exists_ite_eq_illegal {p : Prop} [Decidable p] (d : Decoded) (r : IllegalCmd) :
    (∃ why, (if p then d else .illegal r) = .illegal why) ↔ ¬ p ∨ ∃ why, d = .illegal why := by
  by_cases h : p <;> simp [h]

/-- Exactly which words are illegal (30_encoding.md R54): after the RSV
check, one case per opcode, whose checks `exists_ite_eq_illegal` turns into disjuncts. -/
theorem decode_illegal_iff (w : Word) : (∃ why, decode w = .illegal why) ↔
    ((opField w).toNat = 0 ∨ 8 ≤ (opField w).toNat ∨ rsvField w ≠ 0#8 ∨
      (subField w ≠ 0#4 ∧ (opField w).toNat ∈ [2, 3, 4, 5, 6]) ∨
      (immField w ≠ 0#16 ∧ (opField w).toNat ∈ [1, 2, 4, 5, 6])) := by
  simp only [decode, ne_eq, ite_not, exists_ite_eq_illegal]
  match (opField w).toNat with
  | 0 | 1 | 2 | 3 | 4 | 5 | 6 | 7 => simp
  | n + 8 => simp

end Sys2Proof

namespace Sys2Proof.Machine

/-! SUPPORT. What acceptance does with an illegal word and with a rejected command, and which commands are rejected
(30_encoding.md R54, R56, R58). -/

/-- Accepting an illegal word writes RESULT and nothing else, whatever the reason (30_encoding.md R54). -/
theorem acceptWord_illegal {w : Word} {why : IllegalCmd} (h : decode w = .illegal why) (s : State) :
    acceptWord w s = .next { s with result := .illegalCmd } := by
  simp only [acceptWord, h]

/-- Settles O7: the decoder's checks are `decode_illegal_iff`; what acceptance does is `acceptWord_illegal`. -/
theorem illegalWords : Obligations.IllegalWords :=
  ⟨decode_illegal_iff, fun s _ _ _ hw => ⟨acceptWord_illegal hw s, rfl⟩⟩

/-! ### Rejection -/

/-- A rejected command writes its code to RESULT and nothing else (30_encoding.md R58). -/
theorem exec_rejected {c : Instr} {s : State} {code : ResultCode} (hidle : s.seq = .idle)
    (hr : rejectOf s.cfg c = some code) : exec c s = .next { s with result := code } := by
  rw [exec_idle hidle, hr, accept]

/-- A command that is not rejected runs from index 0 with its initial locals (30_encoding.md R58). -/
theorem exec_accepted {c : Instr} {s : State} (hidle : s.seq = .idle) (hr : rejectOf s.cfg c = none) :
    exec c s = .next { s with seq := .run c 0 (localsOf s.cfg c) } := by
  rw [exec_idle hidle, hr, accept, State.goto]

/-- The only timer modes are 0 and 1 (30_encoding.md R51). -/
theorem modeOperand_eq_none {m : BitVec 4} : modeOperand m = none ↔ m ≠ 0#4 ∧ m ≠ 1#4 := by
  unfold modeOperand
  split_ifs <;> simp [*]

/-- The only directions are 0x1 and 0xF (30_encoding.md R52). -/
theorem validDirection_iff {dir : BitVec 4} : validDirection dir = true ↔ dir = 1#4 ∨ dir = 15#4 := by
  simp [validDirection]

/-- Compatible mode rejects no command (30_encoding.md R56). -/
theorem rejectOf_compatible {p : Params} (hp : p.seqMode = .compatible) (c : Instr) : rejectOf p c = none := by
  cases c with
  | tcfg m => simp only [rejectOf, rejectTcfg, hp]
  | smove dir n => simp only [rejectOf, rejectSmove, hp]
  | tstop | wait d | einit | eread | sinit => rfl

/-- Strict mode rejects an invalid timer mode (30_encoding.md R56). -/
theorem rejectOf_tcfg_strict {p : Params} {m : BitVec 4} (hp : p.seqMode = .strict) (hm : modeOperand m = none) :
    rejectOf p (.tcfg m) = some .invMode := by
  simp only [rejectOf, rejectTcfg, hp, hm]

/-- Strict mode rejects an SMOVE by its direction, then by its count (30_encoding.md R56, R57). -/
theorem rejectOf_smove_strict {p : Params} (hp : p.seqMode = .strict) (dir : BitVec 4) (n : Nat) :
    rejectOf p (.smove dir n) =
      if validDirection dir then (if n = 0 then some .invCount else none) else some .invDir := by
  cases hv : validDirection dir <;> simp [rejectOf, rejectSmove, hp, hv]

/-- Settles O11: each clause is `exec_rejected` or `exec_accepted` on the rejection of that command in that mode. -/
theorem strictValidation : Obligations.StrictValidation := by
  refine ⟨fun s m hidle hstrict h0 h1 => ?_, fun s dir n hidle hstrict h1 h15 => ?_, fun s dir hidle hstrict hdir => ?_,
    fun s c hidle hcompat => exec_accepted hidle (rejectOf_compatible hcompat c), rfl, rfl, rfl⟩
  · exact exec_rejected hidle (rejectOf_tcfg_strict hstrict (modeOperand_eq_none.mpr ⟨h0, h1⟩))
  · have hinvalid : ¬ validDirection dir = true := fun h => (validDirection_iff.mp h).elim h1 h15
    exact exec_rejected hidle ((rejectOf_smove_strict hstrict dir n).trans (if_neg hinvalid))
  · have hvalid : validDirection dir = true := validDirection_iff.mpr hdir
    exact exec_rejected hidle ((rejectOf_smove_strict hstrict dir 0).trans (if_pos hvalid))

end Sys2Proof.Machine

namespace Sys2Proof.Machine

/-! SUPPORT. The timer's atomic steps: CLEAR and POLL of a WaitProg, TCFG's CFG, TSTOP's STOP, and the turns of MATCH and
ISR (41_timer.md R63, R65, R70 to R75). -/

/-! ### Access to TICKS -/

/-- An atomic access to TICKS is one μ-step (20_memory.md R39). -/
theorem accessSteps_atomic {p : Params} (h : p.tickAtomic = true) : accessSteps p = 1 := by
  simp only [accessSteps, h, if_true]

/-- A byte-wise access to TICKS is one μ-step per byte (20_memory.md R39). -/
theorem accessSteps_bytewise {p : Params} (h : p.tickAtomic = false) : accessSteps p = p.tickW.bytes := by
  simp [accessSteps, h]

/-- A byte write as a frame statement: the byte itself, and every other byte kept (20_memory.md R37). -/
theorem byteOf_setByte_frame (w : Word) (b : Byte) {k : Nat} (hk : k < 4) :
    byteOf (setByte w k b) k = b ∧ ∀ j, j < 4 → j ≠ k → byteOf (setByte w k b) j = byteOf w j :=
  ⟨(byteOf_setByte w b k k hk hk).trans (if_pos rfl),
    fun j hj hne => (byteOf_setByte w b k j hk hj).trans (if_neg hne)⟩

/-- What POLL reads has TICK_W bits (41_timer.md R75). -/
theorem State.tickValue_toNat (s : State) : s.tickValue.toNat = s.ticks.toNat % 2 ^ s.cfg.tickW.bits :=
  toNat_tickBits _ _

/-- The bytes of TICKS that POLL reads are those that stand in TICKS (41_timer.md R75). -/
theorem State.byteOf_tickValue (s : State) {k : Nat} (hk : k < s.cfg.tickW.bytes) :
    byteOf s.tickValue k = byteOf s.ticks k :=
  byteOf_tickBits _ _ k hk

/-! ### CLEAR -/

/-- Settles O18: `progOf_clear` finds the μ-operation, whose byte-wise form writes one byte by `byteOf_setByte_frame`. -/
theorem waitClearsTicks : Obligations.WaitClearsTicks := by
  intro s c d k L hc hk hrun
  have hclear := progOf_clear (p := s.cfg) hc hk
  have hk4 : k < 4 := hk.trans_le (accessSteps_bounds s.cfg).2
  cases hatomic : s.cfg.tickAtomic with
  | true =>
    rw [hatomic, if_pos rfl] at hclear
    exact ⟨0, exec_running hrun hclear, fun _ => rfl, nofun⟩
  | false =>
    rw [hatomic, if_neg (by decide)] at hclear
    exact ⟨setByte s.ticks k 0, exec_running hrun hclear, nofun, fun _ => byteOf_setByte_frame s.ticks 0 hk4⟩

/-! ### POLL -/

/-- Where SEQ goes from the `k`-th of the `n` μ-steps of a POLL that begins at `first`: the last one takes `pollTarget`,
which is the STOP behind the POLL or the POLL's first μ-step (41_timer.md R75). -/
theorem pollIndex_eq (L : Locals) (v : Word) {n k : Nat} (first : Nat) (hk : k < n) :
    (if k + 1 = n then pollTarget L v first (first + k) else first + k + 1) =
      if k + 1 < n then first + k + 1 else if L.d ≤ v.toNat then first + n else first := by
  by_cases hlast : k + 1 = n
  · rw [if_pos hlast, if_neg hlast.not_lt, pollTarget, Nat.add_assoc, hlast]
  · rw [if_neg hlast, if_pos (lt_of_le_of_ne hk hlast)]

/-- Settles O20: `progOf_poll` finds the μ-operation, `pollIndex_eq` says where it goes, and what it reads is TICKS by
`State.tickValue_toNat`, or one byte of it by `State.byteOf_tickValue`. -/
theorem waitPolls : Obligations.WaitPolls := by
  intro s c d k L hc hk hrun
  have hpoll := progOf_poll (p := s.cfg) hc hk
  have hstop : waitStart c + accessSteps s.cfg + 1 + accessSteps s.cfg = waitStart c + 2 * accessSteps s.cfg + 1 := by
    omega
  have hindex := fun v => pollIndex_eq L v (waitStart c + accessSteps s.cfg + 1) hk
  simp only [hstop] at hindex
  cases hatomic : s.cfg.tickAtomic with
  | true =>
    rw [hatomic, if_pos rfl] at hpoll
    have hone := accessSteps_atomic hatomic
    obtain rfl : k = 0 := by omega
    refine ⟨s.tickValue, _, ?_, rfl, fun _ => s.tickValue_toNat, nofun⟩
    rw [exec_running hrun hpoll, ← hindex, if_pos hone.symm]
    rfl
  | false =>
    rw [hatomic, if_neg (by decide)] at hpoll
    have hkw : k < s.cfg.tickW.bytes := accessSteps_bytewise hatomic ▸ hk
    have hbytes := byteOf_setByte_frame L.v (byteOf s.tickValue k) (hkw.trans_le (tickBytes_le _))
    rw [s.byteOf_tickValue hkw] at hbytes
    refine ⟨setByte L.v k (byteOf s.ticks k), _, ?_, rfl, nofun, fun _ => hbytes⟩
    rw [exec_running hrun hpoll, ← hindex, ← s.byteOf_tickValue hkw]
    simp only [microStep, State.goto, Nat.add_sub_cancel, decide_eq_true_eq]

/-! ### CFG and STOP -/

/-- A TCFG with a valid mode begins with CFG of that mode (41_timer.md R64). -/
theorem progOf_tcfg {m : BitVec 4} {pre : Prescale} (h : modeOperand m = some pre) (p : Params) :
    progOf p (.tcfg m) = [.cfg pre, .done .ok] := by
  simp only [progOf, progTcfg, h]

/-- The CFG of a TCFG with a valid mode is one μ-step (41_timer.md R63, R64). -/
theorem exec_tcfg {s : State} {m : BitVec 4} {L : Locals} {pre : Prescale} (hrun : s.seq = .run (.tcfg m) 0 L)
    (h : modeOperand m = some pre) : exec (.tcfg m) s = .next ((s.timerConfigure pre).goto (.tcfg m) 1 L) :=
  exec_running (op := .cfg pre) hrun (by rw [progOf_tcfg h]; rfl)

/-- Settles O14: mode 0 is slow and mode 1 fast, and `exec_tcfg` runs the CFG of each. -/
theorem tcfgConfiguresTimer : Obligations.TcfgConfiguresTimer := by
  rintro s m L hrun (rfl | rfl)
  · exact exec_tcfg (pre := .slow) hrun rfl
  · exact exec_tcfg (pre := .fast) hrun rfl

/-- Settles O16: TSTOP's first μ-operation is STOP. -/
theorem tstopStopsTimer : Obligations.TstopStopsTimer :=
  fun _ _ hrun => exec_running (op := .stop) hrun rfl

/-! ### MATCH and ISR -/

/-- A step with a turn at the head of the agenda is that turn, taken out (log 6). -/
theorem step_of_agenda {s : State} {e : Event} {rest : List Event} (h : s.agenda = e :: rest) :
    step s = agentTurn e { s with agenda := rest } := by
  simp only [step, State.nextEvent, State.afterEvent, h]

/-- MATCH where the timer runs (41_timer.md R70). -/
theorem State.compareMatch_running {s : State} (h : s.tctrl.mode ≠ .off) :
    s.compareMatch = { s with tctrl := { s.tctrl with pend := true } } :=
  if_pos (decide_eq_true h)

/-- MATCH where the timer is off passes (log 7). -/
theorem State.compareMatch_off {s : State} (h : s.tctrl.mode = .off) : s.compareMatch = s :=
  if_neg (by simp [matchEnabled, h])

/-- Settles O23: a turn of MATCH is `compareMatch`, which sets PEND or passes. -/
theorem compareMatchSetsPending : Obligations.CompareMatchSetsPending := by
  intro s rest hturn
  rw [step_of_agenda hturn]
  exact ⟨fun hmode => congrArg Host.Outcome.next (State.compareMatch_running hmode),
    fun hmode => congrArg Host.Outcome.next (State.compareMatch_off hmode)⟩

/-- ISR's condition (41_timer.md R71). -/
theorem isrEnabled_iff {t : TimerControl} : isrEnabled t = true ↔ t.pend = true ∧ t.tie = true ∧ t.gie = true := by
  simp [isrEnabled, and_assoc]

/-- The interrupt, taken and returned from (41_timer.md R71, R72). -/
theorem State.takeInterrupt_enabled {s : State} (h : isrEnabled s.tctrl = true) :
    s.takeInterrupt = { s with
      tctrl := { s.tctrl with pend := false }
      ticks := BitVec.ofNat 32 ((s.ticks.toNat + 1) % 2 ^ s.cfg.tickW.bits) } :=
  if_pos h

/-- ISR where its condition does not hold passes (log 7). -/
theorem State.takeInterrupt_disabled {s : State} (h : ¬ isrEnabled s.tctrl = true) : s.takeInterrupt = s :=
  if_neg h

/-- Settles O24: a turn of ISR is `takeInterrupt`, whose count keeps TICK_W bits by `toNat_tickBits`. -/
theorem interruptCountsTick : Obligations.InterruptCountsTick := by
  intro s rest hturn
  rw [step_of_agenda hturn, ← isrEnabled_iff]
  exact ⟨fun henabled => ⟨_, congrArg Host.Outcome.next (State.takeInterrupt_enabled henabled), toNat_tickBits _ _⟩,
    fun hdisabled => congrArg Host.Outcome.next (State.takeInterrupt_disabled hdisabled)⟩

end Sys2Proof.Machine

namespace Sys2Proof.Machine

/-! SUPPORT. The quadrature decoder: its transfer function, ECONF's masks bit by bit and ESAMPLE's two samples
(43_quadrature.md R83, R85, R88). -/

/-! ### The transfer function -/

/-- Q reports no rotation where the pair is neither of the two that leave the detent (43_quadrature.md R83). -/
theorem quadrature_eq_zero {prev x : BitVec 2} (hplus : ¬ (prev = 0b11#2 ∧ x = 0b10#2))
    (hminus : ¬ (prev = 0b11#2 ∧ x = 0b01#2)) : quadrature prev x = .zero := by
  rw [quadrature, if_neg hplus, if_neg hminus]

/-- Settles O25: the two rotations are rows of the definition, every other pair is `quadrature_eq_zero`. -/
theorem quadratureTable : Obligations.QuadratureTable :=
  ⟨rfl, rfl, fun _ _ => quadrature_eq_zero⟩

/-- The code of Q's result, as the host reads it in EDELTA (10_state.md R13, 43_quadrature.md R83). -/
theorem deltaCode_quadrature (prev x : BitVec 2) :
    deltaCode (quadrature prev x) =
      if prev = 0b11#2 ∧ x = 0b10#2 then 0b01#2 else if prev = 0b11#2 ∧ x = 0b01#2 then 0b11#2 else 0b00#2 := by
  rw [quadrature, apply_ite deltaCode, apply_ite deltaCode]
  rfl

/-! ### ECONF -/

/-- A port with the encoder mask cleared, bit by bit (43_quadrature.md R85). -/
theorem getLsbD_and_not_encMask (p : Params) (o : Byte) {b : Nat} (hb : b < 8) :
    (o &&& ~~~ encMask p).getLsbD b = if b = p.encA.val ∨ b = p.encB.val then false else o.getLsbD b := by
  rw [BitVec.getLsbD_and, BitVec.getLsbD_not, encMask_bit p b hb]
  split_ifs with henc <;> simp [henc, hb]

/-- A port with the encoder mask set, bit by bit (43_quadrature.md R85). -/
theorem getLsbD_or_encMask (p : Params) (o : Byte) {b : Nat} (hb : b < 8) :
    (o ||| encMask p).getLsbD b = if b = p.encA.val ∨ b = p.encB.val then true else o.getLsbD b := by
  rw [BitVec.getLsbD_or, encMask_bit p b hb]
  split_ifs with henc <;> simp [henc]

/-- Settles O26: EINIT's first μ-operation is ECONF, which clears one mask and sets the other, bit by bit. -/
theorem einitConfiguresLines : Obligations.EinitConfiguresLines := by
  intro s L hrun
  refine ⟨_, _, exec_running (op := .econf) hrun rfl, fun b hb => ⟨?_, ?_⟩⟩
  · exact getLsbD_and_not_encMask s.cfg s.portE.ddr hb
  · exact getLsbD_or_encMask s.cfg s.portE.pue hb

/-! ### ESAMPLE -/

/-- Bit 1 of a sample is the first encoder line (10_state.md R23). -/
theorem encoderSample_bit_one (p : Params) (lines : Byte) :
    (encoderSample p lines).getLsbD 1 = lines.getLsbD p.encA.val := by
  rw [encoderSample, BitVec.getLsbD_append]
  simp

/-- Bit 0 of a sample is the second encoder line (10_state.md R23). -/
theorem encoderSample_bit_zero (p : Params) (lines : Byte) :
    (encoderSample p lines).getLsbD 0 = lines.getLsbD p.encB.val := by
  rw [encoderSample, BitVec.getLsbD_append]
  simp

/-- Settles O27: EREAD's first μ-operation is ESAMPLE; each bit of its sample is the level of one line, which
`pinLevels_bit` gives, and the code of the result is `deltaCode_quadrature`. -/
theorem ereadSamplesAndDecodes : Obligations.EreadSamplesAndDecodes := by
  intro s L hrun
  refine ⟨s.sample, exec_running (op := .esample) hrun rfl, ?_, ?_, deltaCode_quadrature s.prev s.sample⟩
  · exact (encoderSample_bit_one s.cfg _).trans (pinLevels_bit s.portE s.drawnLevels _ s.cfg.encA.isLt)
  · exact (encoderSample_bit_zero s.cfg _).trans (pinLevels_bit s.portE s.drawnLevels _ s.cfg.encB.isLt)

end Sys2Proof.Machine

namespace Sys2Proof.Machine

/-! SUPPORT. The stepper: the phase advance, SMOVE's start and its MICRO, SINIT's port writes, and its settle time as the
WaitProg of a WAIT (44_stepper.md R94 to R100). -/

/-! ### The phase advance -/

/-- `rotl4` moves bit k to bit k+1 and bit 3 to bit 0 (44_stepper.md R94). -/
theorem rotl4_bit (p : BitVec 4) {k : Nat} (hk : k < 4) : (rotl4 p).getLsbD k = p.getLsbD ((k + 3) % 4) := by
  rw [rotl4, BitVec.getLsbD_append]
  match k with
  | 0 => simp
  | k + 1 => simp [show (k + 1 + 3) % 4 = k by omega, show k < 3 by omega]

/-- `rotr4` moves bit k to bit k-1 and bit 0 to bit 3 (44_stepper.md R94). -/
theorem rotr4_bit (p : BitVec 4) {k : Nat} (hk : k < 4) : (rotr4 p).getLsbD k = p.getLsbD ((k + 1) % 4) := by
  rw [rotr4, BitVec.getLsbD_append]
  by_cases h3 : k < 3
  · simp [h3, Nat.mod_eq_of_lt (show k + 1 < 4 by omega), Nat.add_comm]
  · obtain rfl : k = 3 := by omega
    simp

/-- Settles O29: 0x1 rotates left, 0xF right, any other direction is neither branch; the table is evaluated. -/
theorem advanceRotates : Obligations.AdvanceRotates := by
  refine ⟨fun p k hk => ⟨rotl4_bit p hk, rotr4_bit p hk⟩, fun p dir h1 h15 => ?_, by decide, by decide⟩
  rw [advance, if_neg h1, if_neg h15]

/-! ### SMOVE -/

/-- Compatible mode rejects no SMOVE, strict mode none with a valid direction and a positive count (44_stepper.md R101). -/
theorem rejectOf_smove_eq_none {p : Params} {dir : BitVec 4} {n : Nat}
    (h : p.seqMode = .compatible ∨ ((dir = 1#4 ∨ dir = 15#4) ∧ 0 < n)) : rejectOf p (.smove dir n) = none := by
  cases hmode : p.seqMode with
  | compatible => exact rejectOf_compatible hmode _
  | strict =>
    obtain ⟨hdir, hn⟩ := h.resolve_left (by simp [hmode])
    rw [rejectOf_smove_strict hmode, if_pos (validDirection_iff.mpr hdir), if_neg hn.ne']

/-- An SMOVE that runs makes at least one iteration (44_stepper.md R100). -/
theorem one_le_iterationLimit {mode : SeqMode} {n : Nat} (h : mode = .compatible ∨ 0 < n) :
    1 ≤ iterationLimit mode n := by
  cases mode with
  | compatible => exact Nat.le_add_left 1 n
  | strict => exact h.resolve_left nofun

/-- Settles O12: an SMOVE that is not rejected starts with `localsSmove`, whose limit is R100's. -/
theorem smoveStartsAtPhaseInit : Obligations.SmoveStartsAtPhaseInit := by
  intro s dir n hidle hok
  refine ⟨_, exec_accepted hidle (rejectOf_smove_eq_none hok), rfl, rfl, rfl, rfl, rfl,
    one_le_iterationLimit (hok.imp_right And.right), fun hcompat => ?_, fun hstrict => ?_⟩
  · exact congrArg (iterationLimit · n) hcompat
  · exact congrArg (iterationLimit · n) hstrict

/-- MICRO's port write in terms of the two directions (44_stepper.md R99). -/
theorem State.microDrive_eq (s : State) (dir p : BitVec 4) :
    s.microDrive dir p = { s with
      portS := if dir = 1#4 ∨ dir = 15#4 ∨ s.cfg.invalidDirWrites = true
        then { s.portS with out := merge s.cfg.stepShift s.portS.out p } else s.portS } := by
  have hcond : (validDirection dir || s.cfg.invalidDirWrites) = true ↔
      dir = 1#4 ∨ dir = 15#4 ∨ s.cfg.invalidDirWrites = true := by
    rw [Bool.or_eq_true, validDirection_iff, or_assoc]
  simp only [State.microDrive, hcond]
  split_ifs <;> rfl

/-- Settles O34: SMOVE's first μ-operation is MICRO, whose write is `State.microDrive_eq`; then the count decides. -/
theorem smoveMicroAdvances : Obligations.SmoveMicroAdvances := by
  intro s dir n L hrun
  rw [exec_running (op := .micro) hrun rfl]
  simp only [microStep, State.microDrive_eq, State.goto, Config.microPerStep]
  split_ifs <;> rfl

/-! ### SINIT's port writes -/

/-- A port with the stepper mask set, bit by bit (44_stepper.md R95). -/
theorem getLsbD_or_stepMask (shift : Fin 5) (o : Byte) {b : Nat} (hb : b < 8) :
    (o ||| stepMask shift).getLsbD b = if shift.val ≤ b ∧ b < shift.val + 4 then true else o.getLsbD b := by
  rw [BitVec.getLsbD_or, stepMask_bit shift b hb]
  split_ifs with hstep <;> simp [hstep]

/-- How many μ-operations a WaitProg has (41_timer.md R73). -/
@[simp] theorem waitProg_length (p : Params) (d : Nat) (last : MicroOp) :
    (waitProg p d last).length = 2 * accessSteps p + 2 := by
  simp [waitProg]
  omega

/-- SCLR, after SINIT's WaitProg (44_stepper.md R97). -/
theorem progOf_sclr (p : Params) : (progOf p .sinit)[2 * accessSteps p + 4]? = some .sclr := by
  rw [progOf, progSinit, List.getElem?_append_right (by simp)]
  simp

/-- Settles O31: SDIR sets the mask, SPAT and SCLR are two merges, bit by bit. -/
theorem sinitDrivesLines : Obligations.SinitDrivesLines := by
  intro s i L hrun
  refine ⟨?_, ?_⟩
  · rintro rfl
    exact ⟨_, exec_running (op := .sdir) hrun rfl, fun b hb => getLsbD_or_stepMask s.cfg.stepShift s.portS.ddr hb⟩
  · rintro (rfl | rfl)
    · exact ⟨_, exec_running (op := .spat) hrun rfl, fun b hb => merge_bit _ _ _ b hb⟩
    · refine ⟨_, exec_running hrun (progOf_sclr s.cfg), fun b hb => ?_⟩
      rw [if_neg (show 2 * accessSteps s.cfg + 4 ≠ 1 by omega), merge_bit _ _ _ b hb]
      simp only [BitVec.ofNat_eq_ofNat, BitVec.getLsbD_zero]

/-! ### SINIT's settle time -/

/-- SINIT's μ-program holds, from index 2 on, the WaitProg that WAIT 2's begins with (44_stepper.md R96). -/
theorem progOf_sinit_settle {p : Params} {k : Nat} (hk : k < 2 * accessSteps p + 2) :
    (progOf p .sinit)[2 + k]? = (progOf p (.wait 2))[k]? := by
  have hlen : k < (waitProg p 2 .stop).length := by rwa [waitProg_length]
  calc (progOf p .sinit)[2 + k]?
    _ = (waitProg p 2 .stop ++ [.sclr, .done .ok])[k]? := by
      rw [progOf, progSinit, List.append_assoc, List.getElem?_append_right (by simp)]
      simp [Config.settleMs]
    _ = (waitProg p 2 .stop)[k]? := List.getElem?_append_left hlen
    _ = (progOf p (.wait 2))[k]? := (List.getElem?_append_left hlen).symm

/-- The μ-operation can stand at index `i` of a WaitProg that does not repeat: a byte step of POLL has the POLL's earlier byte
steps before it (41_timer.md R73). -/
def MicroOp.inWaitAt (i : Nat) : MicroOp → Prop
  | .clear _ | .clearByte _ _ | .cfg _ | .poll | .stop => True
  | .pollByte k _ => k ≤ i
  | .stopOrRepeat | .econf | .esample | .sdir | .spat | .sclr | .micro | .done _ => False

/-- WAIT's μ-operations up to its STOP are those of a WaitProg (41_timer.md R76). -/
theorem inWaitAt_of_progOf_wait {p : Params} {d k : Nat} {op : MicroOp} (h : (progOf p (.wait d))[k]? = some op)
    (hk : k < 2 * accessSteps p + 2) : op.inWaitAt k := by
  rcases progOf_at (c := .wait d) rfl h with hpre | ⟨j, -, -, rfl⟩ | ⟨-, rfl⟩ | ⟨j, -, rfl, rfl⟩ |
    ⟨-, ⟨rfl, -⟩ | ⟨-, _, _, hmove⟩⟩ | ⟨hpast, -⟩ | ⟨hpast, -⟩
  · exact absurd hpre (Nat.not_lt_zero k)
  · split <;> trivial
  · trivial
  · split
    · trivial
    · exact Nat.le_add_left j _
  · trivial
  · exact nomatch hmove
  · simp only [waitStart] at hpast; omega
  · simp only [waitStart] at hpast; omega

/-- POLL's two targets move with the place of its μ-program (41_timer.md R75). -/
theorem pollTarget_add (L : Locals) (v : Word) (start first i : Nat) :
    pollTarget L v (start + first) (start + i) = start + pollTarget L v first i := by
  unfold pollTarget
  split_ifs <;> rfl

/-- A μ-step of a WaitProg depends neither on the command that contains it nor on where in the μ-program it begins
(41_timer.md R73). -/
theorem microStep_relocates {op : MicroOp} {i : Nat} (h : op.inWaitAt i) (L : Locals) (s : State) :
    ∃ (u : State) (j : Nat) (M : Locals), ∀ (c : Instr) (start : Nat) (q : Seq),
      microStep op c (start + i) L { s with seq := q } = u.goto c (start + j) M := by
  cases op with
  | clear d => exact ⟨{ s with ticks := 0 }, i + 1, { L with d := d }, fun _ _ _ => rfl⟩
  | clearByte d k => exact ⟨{ s with ticks := setByte s.ticks k 0 }, i + 1, { L with d := d }, fun _ _ _ => rfl⟩
  | cfg m => exact ⟨s.timerConfigure m, i + 1, L, fun _ _ _ => rfl⟩
  | stop => exact ⟨s.timerStop, i + 1, L, fun _ _ _ => rfl⟩
  | poll =>
    refine ⟨s, pollTarget L s.tickValue i i, { L with v := s.tickValue }, fun c start q => ?_⟩
    rw [← pollTarget_add]
    rfl
  | pollByte k last =>
    have hfirst (start : Nat) : start + i - k = start + (i - k) := Nat.add_sub_assoc h start
    let v := setByte L.v k (byteOf s.tickValue k)
    refine ⟨s, if last then pollTarget L v (i - k) i else i + 1, { L with v := v }, fun c start q => ?_⟩
    rw [apply_ite (start + ·), ← pollTarget_add, ← hfirst]
    rfl
  | stopOrRepeat | econf | esample | sdir | spat | sclr | micro | done code => exact h.elim

/-- Settles O32: the two μ-programs hold the same μ-operation there, and its μ-step is `microStep_relocates`, with the
WaitProg at index 0 for WAIT 2 and at index 2 for SINIT. -/
theorem sinitSettlesAsWait : Obligations.SinitSettlesAsWait := by
  intro s k L hk
  have hlt : k < (progOf s.cfg (.wait 2)).length := by
    rw [progOf_length (c := .wait 2) rfl]
    omega
  have hwait := List.getElem?_eq_getElem hlt
  have hsinit := (progOf_sinit_settle hk).trans hwait
  obtain ⟨u, j, M, hstep⟩ := microStep_relocates (inWaitAt_of_progOf_wait hwait hk) L s
  have hexec (c : Instr) (start : Nat) (hop : (progOf s.cfg c)[start + k]? = some _) :
      exec c { s with seq := .run c (start + k) L } = .next { u with seq := .run c (start + j) M } :=
    (exec_running (s := { s with seq := .run c (start + k) L }) rfl hop).trans
      (congrArg Host.Outcome.next (hstep c start _))
  have hwaitStep := hexec (.wait 2) 0 (by rwa [Nat.zero_add])
  rw [Nat.zero_add, Nat.zero_add] at hwaitStep
  exact ⟨u, j, M, hwaitStep, hexec .sinit 2 hsinit⟩

end Sys2Proof.Machine

namespace Sys2Proof

/-! SUPPORT. The decoder and the encoder invert each other (30_encoding.md R50, R55, R60). -/

/-- One check of the decoder: a command comes out when the check passes and what follows gives that command. -/
theorem ite_eq_cmd_iff {p : Prop} [Decidable p] {why : IllegalCmd} {d : Decoded} {i : Instr} :
    (if p then d else .illegal why) = .cmd i ↔ p ∧ d = .cmd i := by
  by_cases h : p <;> simp [h]

/-- Which command, if any, a word with RSV = 0 decodes to, by its fields (30_encoding.md R55): one case per opcode, whose
checks `ite_eq_cmd_iff` turns into conjuncts. -/
theorem decode_commandWord (op sub : BitVec 4) (imm : BitVec 16) (i : Instr) :
    decode (commandWord op sub imm) = .cmd i ↔
      op = 1#4 ∧ imm = 0#16 ∧ i = .tcfg sub ∨ op = 2#4 ∧ sub = 0#4 ∧ imm = 0#16 ∧ i = .tstop ∨
      op = 3#4 ∧ sub = 0#4 ∧ i = .wait imm.toNat ∨ op = 4#4 ∧ sub = 0#4 ∧ imm = 0#16 ∧ i = .einit ∨
      op = 5#4 ∧ sub = 0#4 ∧ imm = 0#16 ∧ i = .eread ∨ op = 6#4 ∧ sub = 0#4 ∧ imm = 0#16 ∧ i = .sinit ∨
      op = 7#4 ∧ i = .smove sub imm.toNat := by
  simp only [decode, rsvField_commandWord, opField_commandWord, subField_commandWord, immField_commandWord, ne_eq,
    ite_not, ite_eq_cmd_iff, BitVec.toNat_eq (x := op)]
  match op.toNat with
  | 0 | 1 | 2 | 3 | 4 | 5 | 6 | 7 => simp [ite_eq_cmd_iff, eq_comm (a := i)]
  | n + 8 => simp

/-- Settles O5: each command's word has the fields its decoding asks for; a 16-bit operand comes back as the number it
was. -/
theorem decodeOfEncode : Obligations.DecodeOfEncode := by
  intro i hwf
  cases i with
  | tcfg m | tstop | einit | eread | sinit => simp [encode, decode_commandWord]
  | wait d | smove dir d =>
    have hd : d % 65536 = d := Nat.mod_eq_of_lt (of_decide_eq_true hwf)
    simp [encode, decode_commandWord, hd]

/-- Settles O6: a word that decodes has RSV = 0, so it is the command word of its fields, and `decode_commandWord` leaves
one case per command. -/
theorem encodeOfDecode : Obligations.EncodeOfDecode := by
  intro w i hw
  have hrsv : rsvField w = 0#8 := by
    by_contra hne
    simp [decode, hne] at hw
  have himm16 : (immField w).toNat < 65536 := (immField w).isLt
  rw [← commandWord_fields w hrsv] at hw ⊢
  rcases (decode_commandWord _ _ _ i).mp hw with ⟨hop, himm, rfl⟩ | ⟨hop, hsub, himm, rfl⟩ | ⟨hop, hsub, rfl⟩ |
    ⟨hop, hsub, himm, rfl⟩ | ⟨hop, hsub, himm, rfl⟩ | ⟨hop, hsub, himm, rfl⟩ | ⟨hop, rfl⟩
  all_goals simp [encode, Instr.wellFormed, *]

/-- Settles O4: the decoder is evaluated on the seven words. -/
theorem decodesWrittenOutWords : Obligations.DecodesWrittenOutWords := by
  unfold Obligations.DecodesWrittenOutWords
  decide

end Sys2Proof

namespace Sys2Proof.Machine

/-! SUPPORT. What a μ-step writes beside SEQ: each μ-operation writes one part of the block, and leaves the others; which
parts a command can write is read off its μ-program (30_encoding.md R59, 41_timer.md R63 to R76, 43_quadrature.md R85, R88,
44_stepper.md R95, R99). -/

/-! ### Parts -/

/-- The parts of the block that μ-operations write; POLL writes none. -/
inductive Part where
  /-- TCTRL and TCOMP. -/
  | timer
  /-- TICKS. -/
  | ticks
  | portS
  | portE
  /-- PREV, EDELTA and the draw of a sample. -/
  | decoder
  /-- STATUS.RESULT. -/
  | result
  | none
  deriving DecidableEq

/-- The part a μ-operation writes. -/
def MicroOp.part : MicroOp → Part
  | .cfg _ | .stop | .stopOrRepeat => .timer
  | .clear _ | .clearByte _ _ => .ticks
  | .poll | .pollByte _ _ => .none
  | .econf => .portE
  | .esample => .decoder
  | .sdir | .spat | .sclr | .micro => .portS
  | .done _ => .result

/-- The parts a command's μ-program writes. -/
def partsOf : Instr → List Part
  | .tcfg _ | .tstop => [.timer, .result]
  | .wait _ => [.ticks, .timer, .none, .result]
  | .einit => [.portE, .result]
  | .eread => [.decoder, .result]
  | .sinit | .smove _ _ => [.portS, .ticks, .timer, .none, .result]

/-- The μ-operations of CLEAR write TICKS (41_timer.md R74). -/
theorem part_of_mem_clearOps {p : Params} {d : Nat} {op : MicroOp} (h : op ∈ clearOps p d) : op.part = .ticks := by
  unfold clearOps at h
  split at h
  · obtain rfl := List.mem_singleton.mp h
    rfl
  · obtain ⟨k, -, rfl⟩ := List.mem_map.mp h
    rfl

/-- The μ-operations of POLL write nothing but SEQ (41_timer.md R75). -/
theorem part_of_mem_pollOps {p : Params} {op : MicroOp} (h : op ∈ pollOps p) : op.part = .none := by
  unfold pollOps at h
  split at h
  · obtain rfl := List.mem_singleton.mp h
    rfl
  · obtain ⟨k, -, rfl⟩ := List.mem_map.mp h
    rfl

/-- A WaitProg writes TICKS and the timer (41_timer.md R73). -/
theorem part_of_mem_waitProg {p : Params} {d : Nat} {last op : MicroOp} (hlast : last.part = .timer)
    (h : op ∈ waitProg p d last) : op.part = .ticks ∨ op.part = .timer ∨ op.part = .none := by
  simp only [waitProg, List.mem_append, List.mem_singleton] at h
  rcases h with ((hclear | rfl) | hpoll) | rfl
  · exact .inl (part_of_mem_clearOps hclear)
  · exact .inr (.inl rfl)
  · exact .inr (.inr (part_of_mem_pollOps hpoll))
  · exact .inr (.inl hlast)

/-- A command's μ-operations write the command's parts. -/
theorem part_mem_partsOf {p : Params} {c : Instr} {op : MicroOp} (h : op ∈ progOf p c) : op.part ∈ partsOf c := by
  cases c with
  | tcfg m =>
    simp only [progOf, progTcfg] at h
    split at h <;> simp only [List.mem_cons, List.not_mem_nil, or_false] at h
    · rcases h with rfl | rfl <;> simp [MicroOp.part, partsOf]
    · simp [h, MicroOp.part, partsOf]
  | tstop | einit | eread =>
    simp only [progOf, progTstop, progEinit, progEread, List.mem_cons, List.not_mem_nil, or_false] at h
    rcases h with rfl | rfl <;> decide
  | wait d =>
    simp only [progOf, progWait, List.mem_append, List.mem_singleton] at h
    rcases h with hwait | rfl
    · simpa [partsOf] using Or.imp_right (Or.imp_right .inl) (part_of_mem_waitProg rfl hwait)
    · simp [MicroOp.part, partsOf]
  | sinit =>
    simp only [progOf, progSinit, List.mem_append, List.mem_cons, List.not_mem_nil, or_false] at h
    rcases h with ((rfl | rfl) | hwait) | (rfl | rfl)
    · decide
    · decide
    · rcases part_of_mem_waitProg rfl hwait with hpart | hpart | hpart <;> rw [hpart] <;> decide
    · decide
    · decide
  | smove dir n =>
    simp only [progOf, progSmove, List.mem_append, List.mem_singleton] at h
    rcases h with (rfl | hwait) | rfl
    · simp [MicroOp.part, partsOf]
    · rcases part_of_mem_waitProg rfl hwait with hpart | hpart | hpart <;> simp [hpart, partsOf]
    · simp [MicroOp.part, partsOf]

/-! ### What a μ-step leaves -/

section Frame
variable (op : MicroOp) (c : Instr) (i : Nat) (L : Locals) (s : State)

@[simp] theorem microStep_faults : (microStep op c i L s).faults = s.faults := by
  cases op <;> simp [microStep]
  split <;> simp

@[simp] theorem microStep_readData : (microStep op c i L s).readData = s.readData := by
  cases op <;> simp [microStep]
  split <;> simp

/-- No command writes PEND (10_state.md R16). -/
@[simp] theorem microStep_pend : (microStep op c i L s).tctrl.pend = s.tctrl.pend := by
  cases op <;> simp [microStep]
  split <;> simp

/-- No command writes S_PUE (10_state.md R20). -/
@[simp] theorem microStep_portS_pue : (microStep op c i L s).portS.pue = s.portS.pue := by
  cases op <;> simp [microStep]
  split <;> simp [State.microDrive_eq] <;> split <;> rfl

/-- No command writes E_OUT (10_state.md R20). -/
@[simp] theorem microStep_portE_out : (microStep op c i L s).portE.out = s.portE.out := by
  cases op <;> simp [microStep]
  split <;> simp

variable {op}

theorem microStep_timer (h : op.part ≠ .timer) :
    (microStep op c i L s).tctrl = s.tctrl ∧ (microStep op c i L s).tcomp = s.tcomp := by
  cases op <;> simp [microStep, MicroOp.part] at h ⊢
  split <;> simp

theorem microStep_ticks (h : op.part ≠ .ticks) : (microStep op c i L s).ticks = s.ticks := by
  cases op <;> simp [microStep, MicroOp.part] at h ⊢
  split <;> simp

theorem microStep_portS (h : op.part ≠ .portS) : (microStep op c i L s).portS = s.portS := by
  cases op <;> simp [microStep, MicroOp.part] at h ⊢

theorem microStep_portE (h : op.part ≠ .portE) : (microStep op c i L s).portE = s.portE := by
  cases op <;> simp [microStep, MicroOp.part] at h ⊢
  split <;> simp

theorem microStep_decoder (h : op.part ≠ .decoder) :
    (microStep op c i L s).prev = s.prev ∧ (microStep op c i L s).edelta = s.edelta ∧
      (microStep op c i L s).draws = s.draws ∧ (microStep op c i L s).freeIx = s.freeIx := by
  cases op <;> simp [microStep, MicroOp.part] at h ⊢
  split <;> simp

theorem microStep_result (h : op.part ≠ .result) : (microStep op c i L s).result = s.result := by
  cases op <;> simp [microStep, MicroOp.part] at h ⊢
  split <;> simp

end Frame

end Sys2Proof.Machine

namespace Sys2Proof.Machine

/-! SUPPORT. What a μ-step leaves of the parts it writes, and what one atomic step of a command leaves unchanged. -/

/-! ### Bits of a part that a μ-step leaves -/

/-- No μ-step clears GIE (41_timer.md R69). -/
theorem microStep_gie {op : MicroOp} {c : Instr} {i : Nat} {L : Locals} {s : State} (h : s.tctrl.gie = true) :
    (microStep op c i L s).tctrl.gie = true := by
  by_cases hpart : op.part = .timer
  · cases op <;> simp [MicroOp.part] at hpart <;> simp [microStep, h]
  · rw [(microStep_timer c i L s hpart).1, h]

/-- A stepper write leaves the bits outside the stepper window (44_stepper.md R93). -/
theorem getLsbD_merge_of_not_step {shift : Fin 5} {b : Nat} (hb : b < 8) (hfree : ¬ (shift.val ≤ b ∧ b < shift.val + 4))
    (o : Byte) (q : BitVec 4) : (merge shift o q).getLsbD b = o.getLsbD b := by
  rw [merge_bit shift o q b hb, if_neg hfree]

/-- No μ-step writes a bit of S_DDR or S_OUT that is not a stepper bit (10_state.md R20). -/
theorem microStep_portS_bit {op : MicroOp} {c : Instr} {i : Nat} {L : Locals} {s : State} {b : Nat} (hb : b < 8)
    (hfree : ¬ (s.cfg.stepShift.val ≤ b ∧ b < s.cfg.stepShift.val + 4)) :
    (microStep op c i L s).portS.ddr.getLsbD b = s.portS.ddr.getLsbD b ∧
      (microStep op c i L s).portS.out.getLsbD b = s.portS.out.getLsbD b := by
  have hmerge := getLsbD_merge_of_not_step hb hfree s.portS.out
  by_cases hpart : op.part = .portS
  · cases op <;> simp only [MicroOp.part, reduceCtorEq] at hpart
    case sdir => exact ⟨(getLsbD_or_stepMask _ _ hb).trans (if_neg hfree), rfl⟩
    case spat => exact ⟨rfl, hmerge _⟩
    case sclr => exact ⟨rfl, hmerge _⟩
    case micro =>
      simp only [microStep, State.microDrive_eq]
      split_ifs <;> simp [hmerge]
  · rw [microStep_portS c i L s hpart]
    exact ⟨rfl, rfl⟩

/-- No μ-step writes a bit of E_DDR or E_PUE that is not an encoder bit (10_state.md R20). -/
theorem microStep_portE_bit {op : MicroOp} {c : Instr} {i : Nat} {L : Locals} {s : State} {b : Nat} (hb : b < 8)
    (ha : b ≠ s.cfg.encA.val) (hb' : b ≠ s.cfg.encB.val) :
    (microStep op c i L s).portE.ddr.getLsbD b = s.portE.ddr.getLsbD b ∧
      (microStep op c i L s).portE.pue.getLsbD b = s.portE.pue.getLsbD b := by
  have hfree : ¬ (b = s.cfg.encA.val ∨ b = s.cfg.encB.val) := not_or.mpr ⟨ha, hb'⟩
  by_cases hpart : op.part = .portE
  · cases op <;> simp only [MicroOp.part, reduceCtorEq] at hpart
    exact ⟨(getLsbD_and_not_encMask s.cfg _ hb).trans (if_neg hfree),
      (getLsbD_or_encMask s.cfg _ hb).trans (if_neg hfree)⟩
  · rw [microStep_portE c i L s hpart]
    exact ⟨rfl, rfl⟩

/-! ### One atomic step of a command -/

section Exec
variable {c : Instr} {s t : State}

/-- What one atomic step of a command keeps: whatever acceptance, the fault CMD_WHILE_BUSY and each of the command's
μ-operations keep. -/
theorem exec_preserves {P : State → Prop} (accepted : ∀ r q, P { s with result := r, seq := q })
    (raised : P (s.raise .cmdWhileBusy)) (micro : ∀ op ∈ progOf s.cfg c, ∀ i L, P (microStep op c i L s))
    (h : exec c s = .next t) : P t := by
  rcases exec_next h with ⟨_, rfl⟩ | ⟨i, L, op, _, hop, rfl⟩ | ⟨_, _, _, _, _, rfl⟩
  · rw [accept_eq]
    exact accepted _ _
  · exact micro op (List.mem_of_getElem? hop) i L
  · exact raised

/-- A field that the command's μ-operations keep, and that acceptance and FAULTS do not touch, is kept. -/
theorem exec_keeps {α : Type} (field : State → α) (accepted : ∀ r q, field { s with result := r, seq := q } = field s)
    (raised : field (s.raise .cmdWhileBusy) = field s)
    (micro : ∀ op ∈ progOf s.cfg c, ∀ i L, field (microStep op c i L s) = field s) (h : exec c s = .next t) :
    field t = field s :=
  exec_preserves (P := fun u => field u = field s) accepted raised micro h

theorem exec_cfg (h : exec c s = .next t) : t.cfg = s.cfg :=
  exec_keeps (·.cfg) (fun _ _ => rfl) rfl (fun op _ i L => microStep_cfg op c i L s) h

theorem exec_agenda (h : exec c s = .next t) : t.agenda = s.agenda :=
  exec_keeps (·.agenda) (fun _ _ => rfl) rfl (fun op _ i L => microStep_agenda op c i L s) h

theorem exec_readData (h : exec c s = .next t) : t.readData = s.readData :=
  exec_keeps (·.readData) (fun _ _ => rfl) rfl (fun op _ i L => microStep_readData op c i L s) h

theorem exec_pend (h : exec c s = .next t) : t.tctrl.pend = s.tctrl.pend :=
  exec_keeps (·.tctrl.pend) (fun _ _ => rfl) rfl (fun op _ i L => microStep_pend op c i L s) h

theorem exec_gie (h : exec c s = .next t) (hg : s.tctrl.gie = true) : t.tctrl.gie = true :=
  exec_preserves (P := fun u => u.tctrl.gie = true) (fun _ _ => hg) hg (fun _ _ _ _ => microStep_gie hg) h

theorem exec_portS_pue (h : exec c s = .next t) : t.portS.pue = s.portS.pue :=
  exec_keeps (·.portS.pue) (fun _ _ => rfl) rfl (fun op _ i L => microStep_portS_pue op c i L s) h

theorem exec_portE_out (h : exec c s = .next t) : t.portE.out = s.portE.out :=
  exec_keeps (·.portE.out) (fun _ _ => rfl) rfl (fun op _ i L => microStep_portE_out op c i L s) h

theorem exec_portS_bit (h : exec c s = .next t) {b : Nat} (hb : b < 8)
    (hfree : ¬ (s.cfg.stepShift.val ≤ b ∧ b < s.cfg.stepShift.val + 4)) :
    t.portS.ddr.getLsbD b = s.portS.ddr.getLsbD b ∧ t.portS.out.getLsbD b = s.portS.out.getLsbD b :=
  exec_preserves
    (P := fun u => u.portS.ddr.getLsbD b = s.portS.ddr.getLsbD b ∧ u.portS.out.getLsbD b = s.portS.out.getLsbD b)
    (fun _ _ => ⟨rfl, rfl⟩) ⟨rfl, rfl⟩ (fun _ _ _ _ => microStep_portS_bit hb hfree) h

theorem exec_portE_bit (h : exec c s = .next t) {b : Nat} (hb : b < 8) (ha : b ≠ s.cfg.encA.val)
    (hb' : b ≠ s.cfg.encB.val) :
    t.portE.ddr.getLsbD b = s.portE.ddr.getLsbD b ∧ t.portE.pue.getLsbD b = s.portE.pue.getLsbD b :=
  exec_preserves
    (P := fun u => u.portE.ddr.getLsbD b = s.portE.ddr.getLsbD b ∧ u.portE.pue.getLsbD b = s.portE.pue.getLsbD b)
    (fun _ _ => ⟨rfl, rfl⟩) ⟨rfl, rfl⟩ (fun _ _ _ _ => microStep_portE_bit hb ha hb') h

/-! #### The parts a command does not write -/

/-- A μ-operation of the command does not write a part the command does not write. -/
theorem part_ne {p : Params} {x : Part} {op : MicroOp} (hx : x ∉ partsOf c) (hop : op ∈ progOf p c) : op.part ≠ x :=
  ne_of_mem_of_not_mem (part_mem_partsOf hop) hx

theorem exec_timer (h : exec c s = .next t) (hx : .timer ∉ partsOf c) : t.tctrl = s.tctrl ∧ t.tcomp = s.tcomp :=
  exec_preserves (P := fun u => u.tctrl = s.tctrl ∧ u.tcomp = s.tcomp) (fun _ _ => ⟨rfl, rfl⟩) ⟨rfl, rfl⟩
    (fun _ hop i L => microStep_timer c i L s (part_ne hx hop)) h

theorem exec_ticks (h : exec c s = .next t) (hx : .ticks ∉ partsOf c) : t.ticks = s.ticks :=
  exec_keeps (·.ticks) (fun _ _ => rfl) rfl (fun _ hop i L => microStep_ticks c i L s (part_ne hx hop)) h

theorem exec_portS (h : exec c s = .next t) (hx : .portS ∉ partsOf c) : t.portS = s.portS :=
  exec_keeps (·.portS) (fun _ _ => rfl) rfl (fun _ hop i L => microStep_portS c i L s (part_ne hx hop)) h

theorem exec_portE (h : exec c s = .next t) (hx : .portE ∉ partsOf c) : t.portE = s.portE :=
  exec_keeps (·.portE) (fun _ _ => rfl) rfl (fun _ hop i L => microStep_portE c i L s (part_ne hx hop)) h

theorem exec_decoder (h : exec c s = .next t) (hx : .decoder ∉ partsOf c) :
    t.prev = s.prev ∧ t.edelta = s.edelta ∧ t.draws = s.draws ∧ t.freeIx = s.freeIx :=
  exec_preserves (P := fun u => u.prev = s.prev ∧ u.edelta = s.edelta ∧ u.draws = s.draws ∧ u.freeIx = s.freeIx)
    (fun _ _ => ⟨rfl, rfl, rfl, rfl⟩) ⟨rfl, rfl, rfl, rfl⟩
    (fun _ hop i L => microStep_decoder c i L s (part_ne hx hop)) h

/-! #### RESULT and FAULTS -/

/-- RESULT is written at acceptance and at Done alone (10_state.md R12, 30_encoding.md R58). -/
theorem exec_result (h : exec c s = .next t) :
    t.result = s.result ∨ s.seq = .idle ∨ ∃ code, nextOp s = some (.done code) := by
  rcases exec_next h with ⟨hidle, _⟩ | ⟨i, L, op, hrun, hop, rfl⟩ | ⟨_, _, _, _, _, rfl⟩
  · exact .inr (.inl hidle)
  · by_cases hpart : op.part = .result
    · cases op <;> simp only [MicroOp.part, reduceCtorEq] at hpart
      exact .inr (.inr ⟨_, (nextOp_running hrun).trans hop⟩)
    · exact .inl (microStep_result c i L s hpart)
  · exact .inl rfl

/-- A command adds a fault only where another command runs (20_memory.md R34, log 9). -/
theorem exec_faults (h : exec c s = .next t) :
    t.faults = s.faults ∨ ∃ c' i L, s.seq = .run c' i L ∧ c' ≠ c ∧ t = s.raise .cmdWhileBusy := by
  rcases exec_next h with ⟨_, rfl⟩ | ⟨i, L, op, _, _, rfl⟩ | hother
  · rw [accept_eq]
    exact .inl rfl
  · exact .inl (microStep_faults op c i L s)
  · exact .inr hother

end Exec

/-! ### The frames of the three families -/

/-- TSTOP's μ-operations leave TCOMP and GIE (41_timer.md R65). -/
theorem exec_tstop_keeps {s t : State} (h : exec .tstop s = .next t) :
    t.tcomp = s.tcomp ∧ t.tctrl.gie = s.tctrl.gie := by
  refine exec_preserves (P := fun u => u.tcomp = s.tcomp ∧ u.tctrl.gie = s.tctrl.gie) (fun _ _ => ⟨rfl, rfl⟩) ⟨rfl, rfl⟩
    (fun op hop i L => ?_) h
  simp only [progOf, progTstop, List.mem_cons, List.not_mem_nil, or_false] at hop
  rcases hop with rfl | rfl <;> exact ⟨rfl, rfl⟩

/-- Settles O43: no timer command writes a port or the decoder, and only WAIT writes TICKS. -/
theorem timerCommandsFrame : Obligations.TimerCommandsFrame := by
  intro c s t hc h
  have hparts : .portS ∉ partsOf c ∧ .portE ∉ partsOf c ∧ .decoder ∉ partsOf c := by
    rcases hc with ⟨m, rfl⟩ | rfl | ⟨d, rfl⟩ <;> simp [partsOf]
  obtain ⟨hportS, hportE, hdecoder⟩ := hparts
  obtain ⟨hprev, hedelta, hdraws, hfreeIx⟩ := exec_decoder h hdecoder
  refine ⟨exec_portS h hportS, exec_portE h hportE, hprev, hedelta, exec_pend h, exec_cfg h, exec_agenda h, hdraws,
    hfreeIx,
    exec_readData h, exec_gie h, fun hwait => exec_ticks h ?_, ?_, exec_result h, exec_faults h⟩
  · rcases hc with ⟨m, rfl⟩ | rfl | ⟨d, rfl⟩
    · simp [partsOf]
    · simp [partsOf]
    · exact absurd rfl (hwait d)
  · rintro rfl
    exact exec_tstop_keeps h

/-- Settles O44: EINIT writes port E, bit by bit, and EREAD the decoder. -/
theorem encoderCommandsFrame : Obligations.EncoderCommandsFrame := by
  intro c s t hc h
  have hparts : .timer ∉ partsOf c ∧ .ticks ∉ partsOf c ∧ .portS ∉ partsOf c := by
    rcases hc with rfl | rfl <;> decide
  obtain ⟨htimer, hticks, hportS⟩ := hparts
  obtain ⟨htctrl, htcomp⟩ := exec_timer h htimer
  refine ⟨htctrl, htcomp, exec_ticks h hticks, exec_portS h hportS, exec_portE_out h, exec_cfg h, exec_agenda h,
    exec_readData h, ?_, ?_, exec_result h, exec_faults h⟩
  · rintro rfl
    obtain ⟨hprev, hedelta, hdraws, hfreeIx⟩ := exec_decoder h (by decide)
    exact ⟨hprev, hedelta, hdraws, hfreeIx, fun _ => exec_portE_bit h⟩
  · rintro rfl
    exact exec_portE h (by decide)

/-- SMOVE has no SDIR (44_stepper.md R107). -/
theorem sdir_not_mem_smove (p : Params) (dir : BitVec 4) (n : Nat) : .sdir ∉ progOf p (.smove dir n) := by
  intro hmem
  simp only [progOf, progSmove, List.mem_append, List.mem_singleton, reduceCtorEq, false_or, or_false] at hmem
  simpa [MicroOp.part] using part_of_mem_waitProg rfl hmem

/-- Only SDIR writes S_DDR (44_stepper.md R95, R107). -/
theorem microStep_portS_ddr {op : MicroOp} (h : op ≠ .sdir) (c : Instr) (i : Nat) (L : Locals) (s : State) :
    (microStep op c i L s).portS.ddr = s.portS.ddr := by
  cases op <;> simp [microStep] at h ⊢
  split <;> simp [State.microDrive_eq] <;> split <;> rfl

/-- Settles O45: no stepper command writes port E or the decoder; port S bit by bit, S_DDR only in SINIT. -/
theorem stepperCommandsFrame : Obligations.StepperCommandsFrame := by
  intro c s t hc h
  have hparts : .portE ∉ partsOf c ∧ .decoder ∉ partsOf c := by
    rcases hc with rfl | ⟨dir, n, rfl⟩ <;> simp [partsOf]
  obtain ⟨hportE, hdecoder⟩ := hparts
  obtain ⟨hprev, hedelta, hdraws, hfreeIx⟩ := exec_decoder h hdecoder
  refine ⟨exec_portE h hportE, hprev, hedelta, exec_pend h, exec_portS_pue h, exec_cfg h, exec_agenda h, hdraws, hfreeIx,
    exec_readData h, fun _ => exec_portS_bit h, fun hne => ?_, exec_gie h, exec_result h, exec_faults h⟩
  obtain ⟨dir, n, rfl⟩ := hc.resolve_left hne
  refine exec_keeps (·.portS.ddr) (fun _ _ => rfl) rfl (fun op hop i L => microStep_portS_ddr ?_ _ i L s) h
  rintro rfl
  exact sdir_not_mem_smove _ _ _ hop

end Sys2Proof.Machine

namespace Sys2Proof.Machine

/-! SUPPORT. Rules of the whole machine: who writes what, over the turns of every agent (10_state.md R16, R19, R20,
R24, R26, 41_timer.md R69, 60_exceptions.md R109, R113). -/

/-! ### MATCH, ISR and FAULTS as functions of what they write -/

/-- MATCH writes PEND alone (41_timer.md R70). -/
@[simp] theorem State.compareMatch_tctrl (s : State) :
    s.compareMatch.tctrl = { s.tctrl with pend := s.tctrl.pend || matchEnabled s.tctrl } := by
  unfold State.compareMatch
  split <;> simp [*]

/-- ISR's part of TCTRL is PEND (41_timer.md R71). -/
@[simp] theorem State.takeInterrupt_tctrl (s : State) :
    s.takeInterrupt.tctrl = { s.tctrl with pend := s.tctrl.pend && !isrEnabled s.tctrl } := by
  unfold State.takeInterrupt
  split <;> simp [*]

/-- Membership after a fault is recorded (10_state.md R26). -/
theorem has_addFault (f : FaultSet) (n m : FaultName) : (addFault f n).has m = (decide (m = n) || f.has m) := by
  cases n <;> cases m <;> rfl

/-- FAULTS is empty iff no name is in it. -/
theorem FaultSet.isEmpty_iff (f : FaultSet) : f.isEmpty = true ↔ ∀ n, f.has n = false := by
  constructor
  · intro h n
    simp only [isEmpty, Bool.and_eq_true, Bool.not_eq_true'] at h
    obtain ⟨⟨⟨hbad, hro⟩, hcmd⟩, hwrite⟩ := h
    cases n <;> assumption
  · intro h
    simp only [isEmpty, Bool.and_eq_true, Bool.not_eq_true']
    exact ⟨⟨⟨h .badAccess, h .roWrite⟩, h .cmdWhileBusy⟩, h .hostWriteWhileBusy⟩

/-! ### What a turn can be -/

/-- A host access leaves TCTRL, TICKS and the decoder (20_memory.md R32 to R36). -/
theorem hostAccess_frame {a : HostAccess} {s t : State} (h : hostAccess a s = .next t) :
    t.tctrl = s.tctrl ∧ t.ticks = s.ticks ∧ t.prev = s.prev ∧ t.edelta = s.edelta := by
  rcases hostAccess_next h with ⟨f, rfl⟩ | ⟨r, rfl⟩ | ⟨_, x, y, rfl⟩ | ⟨_, rfl⟩ | ⟨_, c, rfl⟩
  · exact ⟨rfl, rfl, rfl, rfl⟩
  · simp
  · exact ⟨rfl, rfl, rfl, rfl⟩
  · exact ⟨rfl, rfl, rfl, rfl⟩
  · rw [accept_eq]
    exact ⟨rfl, rfl, rfl, rfl⟩

/-- Every step, by whose turn it is: a host access, a pass of SEQ, a μ-step, MATCH, ISR. -/
theorem step_cases {s t : State} (h : step s = .next t) :
    (∃ a, s.nextEvent = .host a ∧ hostAccess a { s.afterEvent with readData := none } = .next t) ∨
    (s.nextEvent = .seq ∧ t = s.afterEvent) ∨
    (s.nextEvent = .seq ∧ ∃ c i L op, s.seq = .run c i L ∧ (progOf s.cfg c)[i]? = some op ∧
      t = microStep op c i L s.afterEvent) ∨
    (s.nextEvent = .compareMatch ∧ t = s.afterEvent.compareMatch) ∨
    (s.nextEvent = .isr ∧ t = s.afterEvent.takeInterrupt) := by
  rcases step_next h with hhost | ⟨he, hturn⟩ | hmatch | hisr
  · exact .inl hhost
  · rcases sequencerTurn_next hturn with ⟨_, rfl⟩ | ⟨c, i, L, op, hrun, hop, rfl⟩
    · exact .inr (.inl ⟨he, rfl⟩)
    · rw [State.afterEvent_seq] at hrun
      rw [State.afterEvent_cfg] at hop
      exact .inr (.inr (.inl ⟨he, c, i, L, op, hrun, hop, rfl⟩))
  · exact .inr (.inr (.inr (.inl hmatch)))
  · exact .inr (.inr (.inr (.inr hisr)))

/-! ### What every step keeps -/

/-- Settles O46: no atomic step of any agent writes `cfg`. -/
theorem parametersNeverChange : Obligations.ParametersNeverChange := by
  intro s t h
  refine step_preserves (Inv := fun u => u.cfg = s.cfg) ?turn ?data ?raise ?read ?ports ?illegal ?accepted ?micro ?tick
    ?interrupt rfl h
  case turn => exact fun u hu => (State.afterEvent_cfg u).trans hu
  case data | raise | ports | illegal => intros; assumption
  case read => exact fun u r hu => (State.hostRead_cfg u r).trans hu
  case accepted => exact fun u c _ hu => by rw [accept_eq]; exact hu
  case micro => exact fun u c i L op _ _ hu => (microStep_cfg op c i L u).trans hu
  case tick => exact fun u hu => (State.compareMatch_cfg u).trans hu
  case interrupt => exact fun u hu => (State.takeInterrupt_cfg u).trans hu

/-- Settles O48: of the atomic steps only CFG writes GIE, and it writes 1. -/
theorem gieNeverCleared : Obligations.GieNeverCleared := by
  intro s t h hgie
  refine step_preserves (Inv := fun u => u.tctrl.gie = true)
    ?turn ?data ?raise ?read ?ports ?illegal ?accepted ?micro ?tick ?interrupt hgie h
  case turn | read | tick | interrupt => intros; simpa
  case data | raise | ports | illegal => intros; assumption
  case accepted => exact fun u c _ hu => by rw [accept_eq]; exact hu
  case micro => exact fun u c i L op _ _ hu => microStep_gie hu

/-- A fault once recorded stays recorded over every step (10_state.md R26). -/
theorem step_keeps_fault {s t : State} (h : step s = .next t) (f : FaultName) (hf : s.faults.has f = true) :
    t.faults.has f = true := by
  refine step_preserves (Inv := fun u => u.faults.has f = true)
    ?turn ?data ?raise ?read ?ports ?illegal ?accepted ?micro ?tick ?interrupt hf h
  case turn | read | micro | tick | interrupt => intros; simpa
  case data | ports | illegal => intros; assumption
  case raise => exact fun u n hu => by rw [State.raise_faults, has_addFault, hu, Bool.or_true]
  case accepted => exact fun u c _ hu => by rw [accept_eq]; exact hu

/-- A turn that is no host access leaves FAULTS (10_state.md R26). -/
theorem step_faults {s t : State} (h : step s = .next t) (hne : ∀ a, s.nextEvent ≠ .host a) : t.faults = s.faults := by
  rcases step_cases h with ⟨a, he, _⟩ | ⟨_, rfl⟩ | ⟨_, c, i, L, op, _, _, rfl⟩ | ⟨_, rfl⟩ | ⟨_, rfl⟩
  · exact absurd he (hne a)
  all_goals simp

/-- Settles O47: `step_keeps_fault`, which keeps FAULTS from becoming empty, and `step_faults`. -/
theorem faultsNeverCleared : Obligations.FaultsNeverCleared := by
  intro s t h
  refine ⟨step_keeps_fault h, fun hfault hfinal => ?_, fun hne => ?_⟩
  · have hempty := (FaultSet.isEmpty_iff _).mp hfinal.2
    have hnone : s.faults.isEmpty = true := (FaultSet.isEmpty_iff _).mpr fun n =>
      Bool.eq_false_iff.mpr fun hn => absurd (step_keeps_fault h n hn) (by simp [hempty n])
    simp [hnone] at hfault
  · by_contra hhost
    exact hne (step_faults h fun a he => hhost ⟨a, he⟩)

/-! ### Who writes PEND, TICKS, the decoder and the ports -/

/-- Settles O49: PEND after MATCH and after ISR is a function of the enabling conditions; no other turn writes it. -/
theorem pendingWriters : Obligations.PendingWriters := by
  intro s t h
  rcases step_cases h with ⟨a, _, ha⟩ | ⟨_, rfl⟩ | ⟨_, c, i, L, op, _, _, rfl⟩ | ⟨he, rfl⟩ | ⟨he, rfl⟩
  · obtain ⟨htctrl, _⟩ := hostAccess_frame ha
    simp +contextual [htctrl]
  · simp +contextual
  · simp +contextual
  · simp +contextual [he, matchEnabled]
  · simp +contextual [he, isrEnabled]

/-- Only CLEAR's μ-operations write TICKS (41_timer.md R74). -/
theorem eq_clear_of_part_ticks {op : MicroOp} (h : op.part = .ticks) :
    ∃ d, op = .clear d ∨ ∃ k, op = .clearByte d k := by
  cases op <;> simp_all [MicroOp.part]

/-- Settles O50: a host access, MATCH and every μ-step but CLEAR's leave TICKS; ISR counts it where it is enabled. -/
theorem ticksWriters : Obligations.TicksWriters := by
  intro s t h hne
  rcases step_cases h with ⟨a, _, ha⟩ | ⟨_, rfl⟩ | ⟨he, c, i, L, op, hrun, hop, rfl⟩ | ⟨_, rfl⟩ | ⟨he, rfl⟩
  · obtain ⟨_, hticks, _⟩ := hostAccess_frame ha
    exact absurd (hticks.trans (by simp)) hne
  · exact absurd (by simp) hne
  · have hpart : op.part = .ticks := by
      by_contra hpart
      exact hne ((microStep_ticks c i L _ hpart).trans (by simp))
    obtain ⟨d, hd⟩ := eq_clear_of_part_ticks hpart
    rw [nextOp_running hrun, hop]
    exact .inr ⟨he, d, hd.imp (congrArg some) fun ⟨k, hk⟩ => ⟨k, congrArg some hk⟩⟩
  · exact absurd (by simp) hne
  · by_cases henabled : isrEnabled s.afterEvent.tctrl = true
    · rw [State.takeInterrupt_enabled henabled]
      simp only [State.afterEvent_tctrl, State.afterEvent_ticks, State.afterEvent_cfg] at henabled ⊢
      exact .inl ⟨he, henabled, toNat_tickBits _ _⟩
    · exact absurd (by rw [State.takeInterrupt_disabled henabled, State.afterEvent_ticks]) hne

/-- ESAMPLE stands in EREAD's μ-program alone, at index 0 (43_quadrature.md R89). -/
theorem eread_of_part_decoder {p : Params} {c : Instr} {i : Nat} {op : MicroOp} (hop : (progOf p c)[i]? = some op)
    (hpart : op.part = .decoder) : c = .eread ∧ i = 0 := by
  have hmem := part_mem_partsOf (List.mem_of_getElem? hop)
  rw [hpart] at hmem
  cases c <;> simp [partsOf] at hmem
  match i with
  | 0 => exact ⟨rfl, rfl⟩
  | 1 => cases hop; cases hpart
  | i + 2 => cases hop

/-- Settles O51: the host, MATCH, ISR and every μ-step but ESAMPLE leave the decoder. -/
theorem decoderWriters : Obligations.DecoderWriters := by
  intro s t h hne
  rcases step_cases h with ⟨a, _, ha⟩ | ⟨_, rfl⟩ | ⟨he, c, i, L, op, hrun, hop, rfl⟩ | ⟨_, rfl⟩ | ⟨_, rfl⟩
  · obtain ⟨_, _, hprev, hedelta⟩ := hostAccess_frame ha
    simp [hprev, hedelta] at hne
  · simp at hne
  · have hpart : op.part = .decoder := by
      by_contra hpart
      obtain ⟨hprev, hedelta, _⟩ := microStep_decoder c i L s.afterEvent hpart
      simp [hprev, hedelta] at hne
    obtain ⟨rfl, rfl⟩ := eread_of_part_decoder hop hpart
    exact ⟨he, L, hrun⟩
  · simp at hne
  · simp at hne

/-- Settles O52: a turn of SEQ passes or is a μ-step, which leaves these bits; MATCH and ISR leave both ports. -/
theorem unownedPortBitsKept : Obligations.UnownedPortBitsKept := by
  intro s t h hne
  rcases step_cases h with ⟨a, he, _⟩ | ⟨_, rfl⟩ | ⟨_, c, i, L, op, _, _, rfl⟩ | ⟨_, rfl⟩ | ⟨_, rfl⟩
  · exact absurd he (hne a)
  · simp
  · refine ⟨by simp, by simp, fun b hb => ⟨fun hfree => ?_, fun ha hb' => ?_⟩⟩
    · simpa using microStep_portS_bit (s := s.afterEvent) hb (by simpa using hfree)
    · simpa using microStep_portE_bit (s := s.afterEvent) hb (by simpa using ha) (by simpa using hb')
  · simp
  · simp

/-! ### Every turn answers a next state -/

/-- While SEQ is Idle acceptance of any word answers a next state (30_encoding.md R54, R58). -/
theorem acceptWord_goesOn {s : State} (hidle : s.seq = .idle) (w : Word) : ∃ t, acceptWord w s = .next t := by
  cases hw : decode w with
  | cmd c => exact ⟨_, by simp only [acceptWord, hw]; exact exec_idle hidle⟩
  | illegal why => exact ⟨_, acceptWord_illegal hw s⟩

/-- Every host access answers a next state; a fault is recorded (20_memory.md R31 to R36, log 11). -/
theorem hostAccess_goesOn (a : HostAccess) (s : State) : ∃ t, hostAccess a s = .next t := by
  cases a with
  | read addr bytes =>
    simp only [hostAccess]
    split <;> exact ⟨_, rfl⟩
  | write addr bytes v =>
    simp only [hostAccess]
    split
    · rename_i r _
      cases r
      case cmd =>
        cases hbusy : s.busy with
        | true => exact ⟨_, hostWrite_cmd_busy hbusy v⟩
        | false => simpa [hostWrite, hbusy] using acceptWord_goesOn (State.busy_eq_false.mp hbusy) v
      all_goals exact ⟨_, rfl⟩
    · exact ⟨_, rfl⟩

/-- A turn of SEQ answers a next state while its index is inside the μ-program (60_exceptions.md R109). -/
theorem sequencerTurn_goesOn {s : State} (hin : s.sequencerInProgram) : ∃ t, sequencerTurn s = .next t := by
  cases hrun : s.seq with
  | idle => exact ⟨s, by simp only [sequencerTurn, hrun]⟩
  | run c i L => exact ⟨_, by simp only [sequencerTurn, hrun]; exact exec_running_next hrun (hin c i L hrun)⟩

/-- Settles O53: each agent's turn answers a next state. -/
theorem everyTurnGoesOn : Obligations.EveryTurnGoesOn := by
  intro s hin
  unfold step
  cases s.nextEvent with
  | host a => exact hostAccess_goesOn a _
  | seq => exact sequencerTurn_goesOn (by simpa [State.sequencerInProgram] using hin)
  | compareMatch => exact ⟨_, rfl⟩
  | isr => exact ⟨_, rfl⟩

end Sys2Proof.Machine

namespace Sys2Proof.Machine

/-! SUPPORT. The invariants of the timer and of SEQ's place in a μ-program (10_state.md R11, R19, R27, 41_timer.md R73 to
R82). -/

/-! ### TIE implies MODE ≠ 00 -/

/-- A μ-step keeps R27: CFG sets TIE with a mode that runs, STOP clears TIE (41_timer.md R63, R65). -/
theorem microStep_tieImpliesRunning {op : MicroOp} {c : Instr} {i : Nat} {L : Locals} {s : State}
    (h : s.tieImpliesRunning) : (microStep op c i L s).tieImpliesRunning := by
  by_cases hpart : op.part = .timer
  · cases op <;> simp only [MicroOp.part, reduceCtorEq] at hpart
    case cfg m => cases m <;> exact fun _ => nofun
    case stop => exact nofun
    case stopOrRepeat => exact nofun
  · rwa [State.tieImpliesRunning, (microStep_timer c i L s hpart).1]

/-- Settles O54: TIE is 0 at reset; only a μ-step writes TIE or MODE. -/
theorem tieImpliesRunningInvariant : Obligations.TieImpliesRunningInvariant := by
  refine ⟨fun p => nofun, fun s t hs h => ?_⟩
  refine step_preserves ?turn ?data ?raise ?read ?ports ?illegal ?accepted ?micro ?tick ?interrupt hs h
  case turn | read | tick | interrupt => intros; simpa [State.tieImpliesRunning]
  case data | raise | ports | illegal => intros; assumption
  case accepted => exact fun u c _ hu => by rw [accept_eq]; exact hu
  case micro => exact fun u c i L op _ _ hu => microStep_tieImpliesRunning hu

/-! ### The μ-operations of a WaitProg -/

/-- What stands before a WaitProg: SINIT's SDIR and SPAT, SMOVE's MICRO (44_stepper.md R97, R101). -/
theorem progOf_before {p : Params} {c : Instr} {i : Nat} {op : MicroOp} (hi : i < waitStart c)
    (hop : (progOf p c)[i]? = some op) :
    c = .sinit ∧ (i = 0 ∧ op = .sdir ∨ i = 1 ∧ op = .spat) ∨ (∃ dir n, c = .smove dir n) ∧ i = 0 ∧ op = .micro := by
  cases c with
  | tcfg m | tstop | wait d | einit | eread => exact absurd hi (Nat.not_lt_zero i)
  | sinit =>
    match i, hi with
    | 0, _ => exact .inl ⟨rfl, .inl ⟨rfl, (Option.some.inj hop).symm⟩⟩
    | 1, _ => exact .inl ⟨rfl, .inr ⟨rfl, (Option.some.inj hop).symm⟩⟩
  | smove dir n =>
    obtain rfl : i = 0 := Nat.lt_one_iff.mp hi
    exact .inr ⟨⟨dir, n, rfl⟩, rfl, (Option.some.inj hop).symm⟩

/-- Only commands that contain a WaitProg write TICKS (41_timer.md R74). -/
theorem waitDuration_of_ticks {c : Instr} (h : .ticks ∈ partsOf c) : ∃ d, waitDuration c = some d := by
  cases c with
  | tcfg m | tstop | einit | eread => simp [partsOf] at h
  | wait d | sinit | smove dir n => exact ⟨_, rfl⟩

/-- CLEAR's byte steps write the TICK_W/8 low bytes (20_memory.md R39). -/
theorem clearByte_lt {p : Params} {c : Instr} {i d k : Nat} (hop : (progOf p c)[i]? = some (.clearByte d k)) :
    k < p.tickW.bytes := by
  obtain ⟨e, he⟩ := waitDuration_of_ticks (part_mem_partsOf (List.mem_of_getElem? hop))
  rcases progOf_at he hop with hi | ⟨j, hj, _, hop'⟩ | ⟨_, hop'⟩ | ⟨j, _, _, hop'⟩ | ⟨_, ⟨hop', _⟩ | ⟨hop', _⟩⟩ |
    ⟨_, ⟨hop', _⟩ | ⟨hop', _⟩⟩ | ⟨_, hop', _⟩
  · rcases progOf_before hi hop with ⟨_, ⟨_, hop'⟩ | ⟨_, hop'⟩⟩ | ⟨_, _, hop'⟩ <;> cases hop'
  · split at hop'
    · cases hop'
    · next hatomic =>
      cases hop'
      rwa [accessSteps_bytewise (Bool.eq_false_iff.mpr hatomic)] at hj
  · cases hop'
  · split at hop' <;> cases hop'
  all_goals cases hop'

/-! ### TICKS stays in range -/

/-- A μ-step keeps TICKS in range: CLEAR writes 0, or 0 into one of the low bytes (41_timer.md R74). -/
theorem microStep_ticksInRange {op : MicroOp} {c : Instr} {i : Nat} {L : Locals} {s : State}
    (hop : (progOf s.cfg c)[i]? = some op) (h : s.ticksInRange) : (microStep op c i L s).ticksInRange := by
  by_cases hpart : op.part = .ticks
  · obtain ⟨d, rfl | ⟨k, rfl⟩⟩ := eq_clear_of_part_ticks hpart
    · exact Nat.two_pow_pos _
    · exact setByte_lt s.cfg.tickW s.ticks 0 k (clearByte_lt hop) h
  · rwa [State.ticksInRange, microStep_ticks c i L s hpart, microStep_cfg]

/-- ISR counts modulo 2^TICK_W (41_timer.md R72). -/
theorem takeInterrupt_ticksInRange {s : State} (h : s.ticksInRange) : s.takeInterrupt.ticksInRange := by
  by_cases henabled : isrEnabled s.tctrl = true
  · rw [State.takeInterrupt_enabled henabled]
    exact (toNat_tickBits _ _).trans_lt (Nat.mod_lt _ (Nat.two_pow_pos _))
  · rwa [State.takeInterrupt_disabled henabled]

/-- Settles O55: CLEAR and ISR are the only writers of TICKS, and both keep it in range. -/
theorem ticksRangeInvariant : Obligations.TicksRangeInvariant := by
  intro s t hs h
  refine step_preserves ?turn ?data ?raise ?read ?ports ?illegal ?accepted ?micro ?tick ?interrupt hs h
  case turn | read | tick => intros; simpa [State.ticksInRange]
  case data | raise | ports | illegal => intros; assumption
  case accepted => exact fun u c _ hu => by rw [accept_eq]; exact hu
  case micro => exact fun u c i L op _ hop hu => microStep_ticksInRange hop hu
  case interrupt => exact fun u hu => takeInterrupt_ticksInRange hu

/-! ### Invariants of the running command -/

/-- The parts of the state that say where a command is: the parameters, SEQ, port S, and MODE, TIE and GIE. -/
def State.sameTrack (s t : State) : Prop :=
  t.cfg = s.cfg ∧ t.seq = s.seq ∧ t.portS = s.portS ∧ t.tctrl.mode = s.tctrl.mode ∧ t.tctrl.tie = s.tctrl.tie ∧
    t.tctrl.gie = s.tctrl.gie

/-- An invariant that says where the running command is holds while SEQ is Idle, and reads no more of the state than
`sameTrack` names; then it remains to look at the start of a command and at its μ-steps, whatever the other agents do. -/
theorem step_preserves_track {Inv : State → Prop} (congr : ∀ s t : State, s.sameTrack t → Inv s → Inv t)
    (idle : ∀ s : State, s.seq = .idle → Inv s)
    (accepted : ∀ (s : State) (c : Instr), rejectOf s.cfg c = none →
      Inv { s with seq := .run c 0 (localsOf s.cfg c) })
    (micro : ∀ s c i L op, s.seq = .run c i L → (progOf s.cfg c)[i]? = some op → Inv s → Inv (microStep op c i L s))
    {s t : State} (hs : Inv s) (h : step s = .next t) : Inv t := by
  refine step_preserves ?turn ?data ?raise ?read ?ports ?illegal ?accepted micro ?tick ?interrupt hs h
  case turn | read | tick | interrupt => exact fun u => by intros; exact congr u _ (by simp [State.sameTrack]) ‹_›
  case data | raise => exact fun u => by intros; exact congr u _ ⟨rfl, rfl, rfl, rfl, rfl, rfl⟩ ‹_›
  case ports => exact fun u x y hidle _ => idle _ hidle
  case illegal => exact fun u hidle _ => idle _ hidle
  case accepted =>
    intro u c hidle _
    cases hr : rejectOf u.cfg c with
    | some code => exact idle _ hidle
    | none => exact accepted u c hr

/-! ### SEQ stays inside the μ-program -/

/-- POLL goes on by one or back (41_timer.md R75). -/
theorem pollTarget_le {L : Locals} {v : Word} {first i : Nat} (h : first ≤ i) : pollTarget L v first i ≤ i + 1 := by
  unfold pollTarget
  split <;> omega

/-- Where SEQ goes from index `i`: it is Idle after Done, else it goes on by at most one index (10_state.md R11, R12). -/
theorem microStep_seq (op : MicroOp) (c : Instr) (i : Nat) (L : Locals) (s : State) :
    (∃ code, op = .done code ∧ (microStep op c i L s).seq = .idle) ∨
      ∃ j M, (microStep op c i L s).seq = .run c j M ∧ j ≤ i + 1 := by
  cases op with
  | done code => exact .inl ⟨code, rfl, rfl⟩
  | cfg m | stop | clear d | clearByte d k | econf | esample | sdir | spat | sclr => exact .inr ⟨_, _, rfl, le_rfl⟩
  | stopOrRepeat => exact .inr ⟨_, _, rfl, by split <;> omega⟩
  | poll => exact .inr ⟨_, _, rfl, pollTarget_le le_rfl⟩
  | pollByte k last =>
    refine .inr ⟨_, _, rfl, ?_⟩
    split
    · exact pollTarget_le (Nat.sub_le i k)
    · exact le_rfl
  | micro =>
    simp only [microStep]
    split
    · exact .inr ⟨_, _, rfl, Nat.le_succ i⟩
    · exact .inr ⟨_, _, rfl, le_rfl⟩

/-- A μ-step does not change which command runs. -/
theorem command_of_microStep_seq {op : MicroOp} {c c' : Instr} {i j : Nat} {L M : Locals} {s : State}
    (h : (microStep op c i L s).seq = .run c' j M) : c' = c := by
  rcases microStep_seq op c i L s with ⟨_, _, hidle⟩ | ⟨_, _, hrun, _⟩
  · cases hidle.symm.trans h
  · exact (Seq.run.inj (h.symm.trans hrun)).1

/-- Behind every μ-operation but Done there is another one (10_state.md R12). -/
theorem succ_lt_progOf_length {p : Params} {c : Instr} {i : Nat} {op : MicroOp} (hop : (progOf p c)[i]? = some op)
    (hne : op ≠ .done .ok) : i + 1 < (progOf p c).length := by
  have hi := (List.getElem?_eq_some_iff.mp hop).1
  refine lt_of_le_of_ne hi fun hlast => hne ?_
  have hdone := progOf_done p c
  rw [← hlast, Nat.add_sub_cancel, hop] at hdone
  exact Option.some.inj hdone

/-- Every command's μ-program has a μ-operation at index 0 (30_encoding.md R58). -/
theorem progOf_length_pos (p : Params) (c : Instr) : 0 < (progOf p c).length := by
  by_contra hempty
  have hdone := progOf_done p c
  simp [List.length_eq_zero_iff.mp (Nat.eq_zero_of_not_pos hempty)] at hdone

/-- Settles O56: a command starts at index 0, and a μ-step that is not Done goes on by at most one index, behind which
there is a μ-operation. -/
theorem sequencerPositionInvariant : Obligations.SequencerPositionInvariant := by
  intro s t hs h
  refine step_preserves_track ?congr ?idle ?accepted ?micro hs h
  case congr =>
    rintro u v ⟨hcfg, hseq, _⟩ hu
    simpa only [State.sequencerInProgram, hcfg, hseq] using hu
  case idle =>
    intro u hidle c i L hrun
    cases hidle.symm.trans hrun
  case accepted =>
    intro u c _ c' i L hrun
    cases hrun
    exact progOf_length_pos u.cfg c
  case micro =>
    intro u c i L op _ hop _ c' j' M' hrun'
    rcases microStep_seq op c i L u with ⟨_, _, hidle⟩ | ⟨j, M, hrun, hj⟩
    · cases hidle.symm.trans hrun'
    · obtain ⟨rfl, rfl, rfl⟩ := Seq.run.inj (hrun.symm.trans hrun')
      rw [microStep_cfg]
      by_cases hdone : op = .done .ok
      · subst hdone; cases hrun
      · exact hj.trans_lt (succ_lt_progOf_length hop hdone)

end Sys2Proof.Machine

namespace Sys2Proof.Machine

/-! SUPPORT. The μ-steps of a command that contains a WaitProg, and the invariants they keep (41_timer.md R73 to R82). -/

/-! ### The μ-steps of a WaitProg -/

/-- A μ-step of CLEAR writes TICKS and the local `d` (41_timer.md R74, log 14). -/
theorem microStep_clearOp (p : Params) (c : Instr) (d k i : Nat) (L : Locals) (s : State) :
    ∃ w, microStep (if p.tickAtomic then .clear d else .clearByte d k) c i L s =
      { s with ticks := w }.goto c (i + 1) { L with d := d } := by
  split <;> exact ⟨_, rfl⟩

/-- Where POLL goes from its `k`-th μ-step with the value `v` read: to the next μ-step, else behind the POLL or back
to its first μ-step (41_timer.md R75). -/
def pollNext (p : Params) (L : Locals) (v : Word) (first k : Nat) : Nat :=
  if k + 1 < accessSteps p then first + k + 1 else if L.d ≤ v.toNat then first + accessSteps p else first

/-- A μ-step of POLL writes the local `v`, which keeps TICK_W bits (41_timer.md R75). -/
theorem microStep_pollOp (c : Instr) {k : Nat} (first : Nat) (L : Locals) {s : State} (hk : k < accessSteps s.cfg) :
    ∃ v,
      microStep (if s.cfg.tickAtomic then .poll else .pollByte k (decide (k + 1 = accessSteps s.cfg))) c (first + k) L s =
        s.goto c (pollNext s.cfg L v first k) { L with v := v } ∧
      (L.v.toNat < 2 ^ s.cfg.tickW.bits → v.toNat < 2 ^ s.cfg.tickW.bits) := by
  have hindex := fun v => pollIndex_eq L v first hk
  cases hatomic : s.cfg.tickAtomic with
  | true =>
    have hone := accessSteps_atomic hatomic
    obtain rfl : k = 0 := by omega
    refine ⟨s.tickValue, ?_, fun _ => ?_⟩
    · rw [pollNext, ← hindex, if_pos hone.symm]
      rfl
    · rw [s.tickValue_toNat]
      exact Nat.mod_lt _ (Nat.two_pow_pos _)
  | false =>
    have hkw : k < s.cfg.tickW.bytes := accessSteps_bytewise hatomic ▸ hk
    refine ⟨setByte L.v k (byteOf s.tickValue k), ?_, setByte_lt _ _ _ _ hkw⟩
    rw [pollNext, ← hindex]
    simp [microStep]

/-- Everything a μ-step of a command that contains a WaitProg can be: one before the WaitProg, a CLEAR, the CFG, a
POLL, the STOP, SINIT's SCLR, or the Done (41_timer.md R73). -/
theorem microStep_wait_cases {c : Instr} {d i : Nat} {L : Locals} {s : State} {op : MicroOp}
    (hd : waitDuration c = some d) (hop : (progOf s.cfg c)[i]? = some op) :
    i < waitStart c ∨
    (∃ k w, k < accessSteps s.cfg ∧ i = waitStart c + k ∧
      microStep op c i L s = { s with ticks := w }.goto c (i + 1) { L with d := d }) ∨
    (i = waitStart c + accessSteps s.cfg ∧ op = .cfg .slow) ∨
    (∃ k v, k < accessSteps s.cfg ∧ i = waitStart c + accessSteps s.cfg + 1 + k ∧
      microStep op c i L s =
        s.goto c (pollNext s.cfg L v (waitStart c + accessSteps s.cfg + 1) k) { L with v := v } ∧
      (L.v.toNat < 2 ^ s.cfg.tickW.bits → v.toNat < 2 ^ s.cfg.tickW.bits)) ∨
    (i = waitStart c + 2 * accessSteps s.cfg + 1 ∧
      (op = .stop ∧ (¬ ∃ dir n, c = .smove dir n) ∨ op = .stopOrRepeat ∧ ∃ dir n, c = .smove dir n)) ∨
    (i = waitStart c + 2 * accessSteps s.cfg + 2 ∧ op = .sclr ∧ c = .sinit) ∨
    (waitStart c + 2 * accessSteps s.cfg + 2 ≤ i ∧ op = .done .ok) := by
  rcases progOf_at hd hop with hpre | ⟨k, hk, rfl, rfl⟩ | hcfg | ⟨k, hk, rfl, rfl⟩ | hstop | ⟨hi, hsclr | hdone⟩ |
    ⟨hi, hdone, -⟩
  · exact .inl hpre
  · obtain ⟨w, hw⟩ := microStep_clearOp s.cfg c d k (waitStart c + k) L s
    exact .inr (.inl ⟨k, w, hk, rfl, hw⟩)
  · exact .inr (.inr (.inl hcfg))
  · obtain ⟨v, hv, hbits⟩ := microStep_pollOp c (waitStart c + accessSteps s.cfg + 1) L hk
    exact .inr (.inr (.inr (.inl ⟨k, v, hk, rfl, hv, hbits⟩)))
  · exact .inr (.inr (.inr (.inr (.inl hstop))))
  · exact .inr (.inr (.inr (.inr (.inr (.inl ⟨hi, hsclr⟩)))))
  · exact .inr (.inr (.inr (.inr (.inr (.inr ⟨hi.ge, hdone.1⟩)))))
  · exact .inr (.inr (.inr (.inr (.inr (.inr ⟨hi.ge.trans' (Nat.le_succ _), hdone⟩)))))

/-! ### `waitFacts` at each place of a μ-program -/

/-- `waitFacts` of whatever stands at index `j` of a command that contains WaitProg(d). -/
def waitFactsAt (p : Params) (c : Instr) (d j : Nat) (L : Locals) (t : TimerControl) : Prop :=
  ∀ op, (progOf p c)[j]? = some op → waitFacts c d op L t

/-- The timer polls: it runs slow with its interrupt enabled (41_timer.md R77). -/
def TimerControl.polling (t : TimerControl) : Prop := t.mode = .slow ∧ t.tie = true ∧ t.gie = true

section FactsAt
variable {p : Params} {c : Instr} {d : Nat} {L : Locals} {t : TimerControl} (hd : waitDuration c = some d)
include hd

omit hd in
theorem waitFactsAt_iff {j : Nat} {op : MicroOp} (hop : (progOf p c)[j]? = some op) :
    waitFactsAt p c d j L t ↔ waitFacts c d op L t := by
  simp only [waitFactsAt, hop, Option.some.injEq, forall_eq']

omit hd in
theorem waitFactsAt_before {j : Nat} (hj : j < waitStart c) (h : 0 < L.it → t.stopped) : waitFactsAt p c d j L t := by
  intro op hop
  rcases progOf_before hj hop with ⟨_, ⟨_, rfl⟩ | ⟨_, rfl⟩⟩ | ⟨_, _, rfl⟩
  · trivial
  · trivial
  · exact h

theorem waitFactsAt_clear {k : Nat} (hk : k < accessSteps p) :
    waitFactsAt p c d (waitStart c + k) L t ↔ (repeatsWait c = true → 1 < L.it → t.stopped) := by
  rw [waitFactsAt_iff (progOf_clear hd hk)]
  split <;> rfl

theorem waitFactsAt_cfg : waitFactsAt p c d (waitStart c + accessSteps p) L t ↔ L.d = d :=
  waitFactsAt_iff (progOf_cfg hd)

theorem waitFactsAt_poll {k : Nat} (hk : k < accessSteps p) :
    waitFactsAt p c d (waitStart c + accessSteps p + 1 + k) L t ↔ L.d = d ∧ t.polling := by
  rw [waitFactsAt_iff (progOf_poll hd hk)]
  split <;> rfl

theorem waitFactsAt_stop :
    waitFactsAt p c d (waitStart c + 2 * accessSteps p + 1) L t ↔ d ≤ L.v.toNat ∧ t.polling := by
  rcases progOf_stop (p := p) hd with ⟨hop, _⟩ | ⟨hop, _⟩ <;> exact waitFactsAt_iff hop

theorem waitFactsAt_after {j : Nat} (hj : waitStart c + 2 * accessSteps p + 1 < j) (h : t.stopped) :
    waitFactsAt p c d j L t := by
  intro op hop
  rcases progOf_at hd hop with hi | ⟨k, _, hi, _⟩ | ⟨hi, _⟩ | ⟨k, _, hi, _⟩ | ⟨hi, _⟩ | ⟨_, ⟨rfl, _⟩ | ⟨rfl, _⟩⟩ |
    ⟨_, rfl, _⟩
  · omega
  · omega
  · omega
  · omega
  · omega
  · exact h
  · exact h
  · exact h

end FactsAt

/-! ### `waitOnTrack` -/

/-- Where a command that contains WaitProg(d) runs, `waitOnTrack` is `waitFactsAt` its index. -/
theorem waitOnTrack_iff {s : State} {c : Instr} {i d : Nat} {L : Locals} (hrun : s.seq = .run c i L)
    (hd : waitDuration c = some d) : s.waitOnTrack ↔ waitFactsAt s.cfg c d i L s.tctrl := by
  constructor
  · exact fun h op hop => h c i L d op hrun hd ((nextOp_running hrun).trans hop)
  · intro h c' i' L' d' op hrun' hd' hop
    obtain ⟨rfl, rfl, rfl⟩ := Seq.run.inj (hrun.symm.trans hrun')
    obtain rfl := Option.some.inj (hd.symm.trans hd')
    exact h op ((nextOp_running hrun).symm.trans hop)

/-- Where no command that contains a WaitProg runs, `waitOnTrack` says nothing. -/
theorem waitOnTrack_of_not_waiting {s : State} (h : ∀ c i L, s.seq = .run c i L → waitDuration c = none) :
    s.waitOnTrack := by
  intro c i L d op hrun hd
  cases (h c i L hrun).symm.trans hd

/-- `waitFacts` reads MODE, TIE and GIE alone. -/
theorem waitFacts_congr {c : Instr} {d : Nat} {op : MicroOp} {L : Locals} {t u : TimerControl} (hmode : u.mode = t.mode)
    (htie : u.tie = t.tie) (hgie : u.gie = t.gie) (h : waitFacts c d op L t) : waitFacts c d op L u := by
  cases op with
  | econf | esample | sdir | spat => trivial
  | _ => simpa only [waitFacts, TimerControl.stopped, hmode, htie, hgie] using h

/-- A command starts with no iteration made. -/
theorem localsOf_it (p : Params) (c : Instr) : (localsOf p c).it = 0 := by
  cases c <;> rfl

/-- A command that contains a WaitProg starts on the track (30_encoding.md R58). -/
theorem waitOnTrack_accepted (s : State) (c : Instr) :
    ({ s with seq := .run c 0 (localsOf s.cfg c) } : State).waitOnTrack := by
  cases hd : waitDuration c with
  | none => exact waitOnTrack_of_not_waiting fun c' i L hrun => by cases hrun; exact hd
  | some d =>
    refine (waitOnTrack_iff rfl hd).mpr ?_
    have hit := localsOf_it s.cfg c
    rcases Nat.eq_zero_or_pos (waitStart c) with hstart | hstart
    · have hclear := (waitFactsAt_clear (t := s.tctrl) hd (accessSteps_bounds s.cfg).1 (L := localsOf s.cfg c)).mpr
        fun _ hpos => absurd hpos (by omega)
      rwa [hstart] at hclear
    · exact waitFactsAt_before hstart fun hpos => absurd hpos (by omega)

/-- CLEAR or CFG comes after a μ-step of CLEAR (41_timer.md R73). -/
theorem waitFactsAt_clear_succ {p : Params} {c : Instr} {d k : Nat} {L : Locals} {t : TimerControl}
    (hd : waitDuration c = some d) (hk : k < accessSteps p) (hL : L.d = d)
    (ht : repeatsWait c = true → 1 < L.it → t.stopped) : waitFactsAt p c d (waitStart c + (k + 1)) L t := by
  by_cases hlast : k + 1 = accessSteps p
  · rw [hlast]
    exact (waitFactsAt_cfg hd).mpr hL
  · exact (waitFactsAt_clear hd (by omega)).mpr ht

/-- STOP comes after a POLL only with a value of at least `d`; else POLL goes on or begins again (41_timer.md R75). -/
theorem waitFactsAt_pollNext {p : Params} {c : Instr} {d k : Nat} {L : Locals} {v : Word} {t : TimerControl}
    (hd : waitDuration c = some d) (hL : L.d = d) (ht : t.polling) :
    waitFactsAt p c d (pollNext p L v (waitStart c + accessSteps p + 1) k) { L with v := v } t := by
  unfold pollNext
  split_ifs with hmore hdone
  · exact (waitFactsAt_poll (k := k + 1) hd hmore).mpr ⟨hL, ht⟩
  · rw [show waitStart c + accessSteps p + 1 + accessSteps p = waitStart c + 2 * accessSteps p + 1 by omega]
    exact (waitFactsAt_stop hd).mpr ⟨hL ▸ hdone, ht⟩
  · exact (waitFactsAt_poll (k := 0) hd (accessSteps_bounds p).1).mpr ⟨hL, ht⟩

/-- The μ-step before a WaitProg leaves the timer; SMOVE's fifth MICRO counts an iteration (44_stepper.md R99, R101). -/
theorem microStep_waitOnTrack_before {s : State} {c : Instr} {i d : Nat} {L : Locals} {op : MicroOp}
    (hop : (progOf s.cfg c)[i]? = some op) (hd : waitDuration c = some d) (hi : i < waitStart c)
    (hfacts : waitFacts c d op L s.tctrl) : (microStep op c i L s).waitOnTrack := by
  have hsteps := (accessSteps_bounds s.cfg).1
  rcases progOf_before hi hop with ⟨rfl, ⟨rfl, rfl⟩ | ⟨rfl, rfl⟩⟩ | ⟨⟨dir, n, rfl⟩, rfl, rfl⟩
  · exact (waitOnTrack_iff rfl hd).mpr ((waitFactsAt_iff (op := .spat) rfl).mpr trivial)
  · exact (waitOnTrack_iff rfl hd).mpr ((waitFactsAt_clear hd hsteps).mpr nofun)
  · have hstopped : 0 < L.it → s.tctrl.stopped := hfacts
    simp only [microStep]
    split
    · refine (waitOnTrack_iff rfl hd).mpr (waitFactsAt_before hi ?_)
      simpa using hstopped
    · refine (waitOnTrack_iff rfl hd).mpr ((waitFactsAt_clear hd (by simpa)).mpr fun _ hit => ?_)
      simpa using hstopped (Nat.lt_of_succ_lt_succ hit)

/-- A μ-step of a command that contains a WaitProg keeps it on the track (41_timer.md R73, R77, R82). -/
theorem microStep_waitOnTrack {s : State} {c : Instr} {i d : Nat} {L : Locals} {op : MicroOp} (hrun : s.seq = .run c i L)
    (hop : (progOf s.cfg c)[i]? = some op) (hd : waitDuration c = some d) (h : s.waitOnTrack) :
    (microStep op c i L s).waitOnTrack := by
  have hat := (waitOnTrack_iff hrun hd).mp h
  have hfacts := hat op hop
  rcases microStep_wait_cases (L := L) hd hop with hi | ⟨k, w, hk, rfl, hstep⟩ | ⟨rfl, rfl⟩ | ⟨k, v, hk, rfl, hstep, -⟩ |
    ⟨rfl, ⟨rfl, _⟩ | ⟨rfl, dir, n, rfl⟩⟩ | ⟨rfl, rfl, rfl⟩ | ⟨_, rfl⟩
  · exact microStep_waitOnTrack_before hop hd hi hfacts
  · rw [hstep]
    exact (waitOnTrack_iff rfl hd).mpr (waitFactsAt_clear_succ (L := { L with d := d }) hd hk rfl
      ((waitFactsAt_clear (L := L) hd hk).mp hat))
  · refine (waitOnTrack_iff rfl hd).mpr ?_
    exact (waitFactsAt_poll (k := 0) hd (accessSteps_bounds _).1).mpr ⟨hfacts, rfl, rfl, rfl⟩
  · obtain ⟨hL, hpolling⟩ := (waitFactsAt_poll hd hk).mp hat
    rw [hstep]
    exact (waitOnTrack_iff rfl hd).mpr (waitFactsAt_pollNext hd hL hpolling)
  · exact (waitOnTrack_iff rfl hd).mpr (waitFactsAt_after hd (Nat.lt_succ_self _) ⟨rfl, rfl⟩)
  · refine (waitOnTrack_iff rfl hd).mpr ?_
    split
    · exact waitFactsAt_before Nat.zero_lt_one fun _ => ⟨rfl, rfl⟩
    · exact waitFactsAt_after hd (Nat.lt_succ_self _) ⟨rfl, rfl⟩
  · exact (waitOnTrack_iff rfl hd).mpr (waitFactsAt_after hd (by simp) hfacts)
  · exact waitOnTrack_of_not_waiting nofun

/-- Settles O57: `waitFacts` reads no more than `sameTrack` names, every command starts on the track, and each μ-step
keeps it there. -/
theorem waitTimerInvariant : Obligations.WaitTimerInvariant := by
  intro s t hs h
  refine step_preserves_track ?congr ?idle (fun u c _ => waitOnTrack_accepted u c) ?micro hs h
  case congr =>
    rintro u v ⟨hcfg, hseq, _, hmode, htie, hgie⟩ hu c i L d op hrun hd hop
    rw [nextOp_running hrun, hcfg] at hop
    rw [hseq] at hrun
    exact waitFacts_congr hmode htie hgie (hu c i L d op hrun hd ((nextOp_running hrun).trans hop))
  case idle => exact fun u hidle => waitOnTrack_of_not_waiting fun c i L hrun => by cases hidle.symm.trans hrun
  case micro =>
    intro u c i L op hrun hop hu
    cases hd : waitDuration c with
    | some d => exact microStep_waitOnTrack hrun hop hd hu
    | none => exact waitOnTrack_of_not_waiting fun c' i' L' hrun' => command_of_microStep_seq hrun' ▸ hd

/-! ### A WAIT too long for TICK_W -/

/-- A WAIT too long for TICK_W waits for ever from acceptance on (41_timer.md R79). -/
theorem waitsForever_accepted {s : State} {d : Nat} (h : 2 ^ s.cfg.tickW.bits ≤ d) :
    ({ s with seq := .run (.wait d) 0 (localsWait d) } : State).waitsForever :=
  ⟨d, 0, localsWait d, rfl, h, rfl, Nat.two_pow_pos _, Nat.zero_le _⟩

/-- A μ-step of such a WAIT does not pass POLL: the value read has TICK_W bits (41_timer.md R79). -/
theorem microStep_waitsForever {s : State} {c : Instr} {i : Nat} {L : Locals} {op : MicroOp} (hrun : s.seq = .run c i L)
    (hop : (progOf s.cfg c)[i]? = some op) (h : s.waitsForever) : (microStep op c i L s).waitsForever := by
  obtain ⟨d, i', L', hrun', hlong, hL, hv, hi⟩ := h
  obtain ⟨rfl, rfl, rfl⟩ := Seq.run.inj (hrun.symm.trans hrun')
  have hsteps := (accessSteps_bounds s.cfg).1
  have hd : waitDuration (.wait d) = some d := rfl
  rcases microStep_wait_cases (L := L) hd hop with hi' | ⟨k, w, hk, rfl, hstep⟩ | ⟨rfl, rfl⟩ |
    ⟨k, v, hk, rfl, hstep, hbits⟩ | ⟨rfl, _⟩ | ⟨rfl, _⟩ | ⟨hi', _⟩
  · exact absurd hi' (Nat.not_lt_zero _)
  · rw [hstep]
    exact ⟨d, _, _, rfl, hlong, rfl, hv, by simp [waitStart]; omega⟩
  · exact ⟨d, _, _, rfl, hlong, hL, hv, by simp [waitStart, microStep]; omega⟩
  · have hshort : ¬ L.d ≤ v.toNat := by have := hbits hv; omega
    rw [hstep]
    refine ⟨d, _, _, rfl, hlong, hL, hbits hv, ?_⟩
    simp only [pollNext, if_neg hshort, waitStart, State.goto_cfg]
    split <;> omega
  · simp only [waitStart] at hi; omega
  · simp only [waitStart] at hi; omega
  · simp only [waitStart] at hi'; omega

/-- Where a WAIT waits for ever depends on the parameters and SEQ alone. -/
theorem waitsForever_congr {s t : State} (hcfg : t.cfg = s.cfg) (hseq : t.seq = s.seq) (h : s.waitsForever) :
    t.waitsForever := by
  simpa only [State.waitsForever, hcfg, hseq] using h

/-- While a WAIT waits for ever SEQ is not Idle. -/
theorem not_idle_of_waitsForever {s : State} (h : s.waitsForever) : s.seq ≠ .idle := by
  obtain ⟨d, i, L, hrun, _⟩ := h
  simp [hrun]

/-- Every step keeps such a WAIT waiting, whatever the turn (41_timer.md R79). -/
theorem step_waitsForever {s t : State} (hs : s.waitsForever) (h : step s = .next t) : t.waitsForever := by
  refine step_preserves ?turn ?data ?raise ?read ?ports ?illegal ?accepted ?micro ?tick ?interrupt hs h
  case turn | read | tick | interrupt =>
    exact fun u => by intros; exact waitsForever_congr (s := u) (by simp) (by simp) ‹_›
  case data | raise => intros; assumption
  case ports => exact fun u x y hidle hu => absurd hidle (not_idle_of_waitsForever hu)
  case illegal => exact fun u hidle hu => absurd hidle (not_idle_of_waitsForever hu)
  case accepted => exact fun u c hidle hu => absurd hidle (not_idle_of_waitsForever hu)
  case micro => exact fun u c i L op hrun hop hu => microStep_waitsForever hrun hop hu

/-- Such a WAIT stands inside its μ-program. -/
theorem sequencerInProgram_of_waitsForever {s : State} (h : s.waitsForever) : s.sequencerInProgram := by
  obtain ⟨d, i, L, hrun, _, _, _, hi⟩ := h
  intro c' i' L' hrun'
  obtain ⟨rfl, rfl, rfl⟩ := Seq.run.inj (hrun.symm.trans hrun')
  rw [progOf_length (c := .wait d) rfl]
  simp only [waitStart]
  omega

/-- Settles O60: acceptance, then `everyTurnGoesOn` with `step_waitsForever`; a running command is busy and not final. -/
theorem waitTooLongNeverEnds : Obligations.WaitTooLongNeverEnds := by
  refine ⟨fun s d hidle hlong => ⟨_, exec_accepted hidle rfl, waitsForever_accepted hlong⟩, fun s hs => ?_⟩
  obtain ⟨t, h⟩ := everyTurnGoesOn s (sequencerInProgram_of_waitsForever hs)
  have ht := step_waitsForever hs h
  have hrunning := not_idle_of_waitsForever ht
  refine ⟨t, h, ht, ?_, fun hfinal => hrunning hfinal.1⟩
  exact Bool.of_not_eq_false fun hbusy => hrunning (State.busy_eq_false.mp hbusy)

end Sys2Proof.Machine

namespace Sys2Proof.Machine

/-! SUPPORT. The invariants of the stepper commands (44_stepper.md R95 to R104). -/

/-! ### The phase sequence -/

/-- Four micro-advances in a valid direction are none (44_stepper.md R103). -/
theorem advances_four {dir : BitVec 4} (hdir : validDirection dir = true) (p : BitVec 4) : advances dir 4 p = p := by
  rcases validDirection_iff.mp hdir with rfl | rfl <;> revert p <;> decide

/-- Micro-advances in a valid direction count modulo four (44_stepper.md R103). -/
theorem advances_mod_four {dir : BitVec 4} (hdir : validDirection dir = true) (p : BitVec 4) (j : Nat) :
    advances dir j p = advances dir (j % 4) p := by
  induction j using Nat.strong_induction_on with
  | _ j ih =>
    by_cases hj : j < 4
    · rw [Nat.mod_eq_of_lt hj]
    · calc advances dir j p
        _ = advances dir (4 + (j - 4)) p := by rw [Nat.add_sub_cancel' (Nat.le_of_not_lt hj)]
        _ = advances dir (j - 4) p := by rw [advances_add, advances_four hdir]
        _ = advances dir (j % 4) p := by rw [ih (j - 4) (by omega), ← Nat.mod_eq_sub_mod (Nat.le_of_not_lt hj)]

/-- The −1 sequence is the +1 sequence the other way (44_stepper.md R104). -/
theorem advances_minus_eq_plus : ∀ (k : Fin 4) (p : BitVec 4), advances 15#4 k p = advances 1#4 (4 - k) p := by
  decide

/-- Settles O30: micro-advances count modulo four, and −1 is looked up for the four remainders. -/
theorem phaseSequences : Obligations.PhaseSequences := by
  intro p j
  have hplus := advances_mod_four (dir := 1#4) rfl p
  have hminus := advances_mod_four (dir := 15#4) rfl p
  have hfive : 5 * j % 4 = j % 4 := by omega
  refine ⟨?_, ?_, ?_, ?_, ?_⟩
  · rw [hplus (j + 4), Nat.add_mod_right, ← hplus]
  · rw [hminus (j + 4), Nat.add_mod_right, ← hminus]
  · rw [hplus (5 * j), hfive]
  · rw [hminus (5 * j), hfive]
  · rw [hminus j]
    exact advances_minus_eq_plus ⟨j % 4, Nat.mod_lt j (by decide)⟩ p

/-! ### The places of a μ-step -/

/-- POLL goes on to a place inside the POLL or to the STOP behind it (41_timer.md R75). -/
theorem pollNext_bounds {p : Params} {L : Locals} {v : Word} {first k : Nat} :
    first ≤ pollNext p L v first k ∧ pollNext p L v first k ≤ first + accessSteps p := by
  unfold pollNext
  split_ifs <;> omega

/-- A μ-step of a command that contains a WaitProg, seen from the stepper: before the WaitProg; inside it, where it
leaves port S and writes the locals `d` and `v` alone; its STOP; SINIT's SCLR; the Done (41_timer.md R73). -/
theorem microStep_wait_places {c : Instr} {d i : Nat} {L : Locals} {s : State} {op : MicroOp}
    (hd : waitDuration c = some d) (hop : (progOf s.cfg c)[i]? = some op) :
    i < waitStart c ∨
    (waitStart c ≤ i ∧ i ≤ waitStart c + 2 * accessSteps s.cfg ∧ (microStep op c i L s).portS = s.portS ∧
      ∃ j e v, waitStart c ≤ j ∧ j ≤ waitStart c + 2 * accessSteps s.cfg + 1 ∧
        (microStep op c i L s).seq = .run c j { L with d := e, v := v }) ∨
    (i = waitStart c + 2 * accessSteps s.cfg + 1 ∧
      (op = .stop ∧ (¬ ∃ dir n, c = .smove dir n) ∨ op = .stopOrRepeat ∧ ∃ dir n, c = .smove dir n)) ∨
    (i = waitStart c + 2 * accessSteps s.cfg + 2 ∧ op = .sclr ∧ c = .sinit) ∨
    (waitStart c + 2 * accessSteps s.cfg + 2 ≤ i ∧ op = .done .ok) := by
  have hsteps := (accessSteps_bounds s.cfg).1
  rcases microStep_wait_cases (L := L) hd hop with hpre | ⟨k, w, hk, rfl, hstep⟩ | ⟨rfl, rfl⟩ |
    ⟨k, v, hk, rfl, hstep, -⟩ | hstop | hsclr | hdone
  · exact .inl hpre
  · refine .inr (.inl ⟨by omega, by omega, by rw [hstep]; rfl, waitStart c + k + 1, d, L.v, by omega, by omega, ?_⟩)
    rw [hstep]
    rfl
  · exact .inr (.inl ⟨by omega, by omega, rfl, _, L.d, L.v, by omega, by omega, rfl⟩)
  · have hnext := pollNext_bounds (p := s.cfg) (L := L) (v := v) (first := waitStart c + accessSteps s.cfg + 1) (k := k)
    refine .inr (.inl ⟨by omega, by omega, by rw [hstep]; rfl, _, L.d, v, hnext.1.trans' (by omega),
      hnext.2.trans (by omega), ?_⟩)
    rw [hstep]
    rfl
  · exact .inr (.inr (.inl hstop))
  · exact .inr (.inr (.inr (.inl hsclr)))
  · exact .inr (.inr (.inr (.inr hdone)))

/-! ### SMOVE -/

/-- `smoveOnTrack` of an SMOVE at index `i` with locals `L`, field by field (44_stepper.md R99 to R103). -/
structure SmoveTrack (p : Params) (out : Byte) (dir : BitVec 4) (n i : Nat) (L : Locals) : Prop where
  dir_eq : L.dir = dir
  n_eq : L.n = n
  lim_eq : L.lim = iterationLimit p.seqMode n
  m_lt : L.m < Config.microPerStep
  it_le : L.it ≤ L.lim
  phase : L.p = advances dir (Config.microPerStep * L.it + L.m) p.phaseInit
  at_micro : i = 0 → L.it < L.lim
  past_micro : 0 < i → L.m = 0 ∧ 0 < L.it
  at_done : i + 1 = (progSmove p).length → L.it = L.lim
  lines : (validDirection dir = true ∨ p.invalidDirWrites = true) → 0 < Config.microPerStep * L.it + L.m →
    stepBits p.stepShift out = L.p

/-- On the track an SMOVE meets `SmoveTrack`. -/
theorem smoveTrack_of_run {s : State} {dir : BitVec 4} {n i : Nat} {L : Locals} (h : s.smoveOnTrack)
    (hrun : s.seq = .run (.smove dir n) i L) : SmoveTrack s.cfg s.portS.out dir n i L := by
  obtain ⟨hdir, hn, hlim, hm, hit, hphase, hmicro, hpast, hdone, hlines⟩ := h dir n i L hrun
  exact ⟨hdir, hn, hlim, hm, hit, hphase, hmicro, hpast, hdone, hlines⟩

/-- An SMOVE that meets `SmoveTrack` is on the track. -/
theorem SmoveTrack.onTrack {s : State} {p : Params} {out : Byte} {dir : BitVec 4} {n i : Nat} {L : Locals}
    (h : SmoveTrack p out dir n i L) (hrun : s.seq = .run (.smove dir n) i L) (hcfg : s.cfg = p)
    (hout : s.portS.out = out) : s.smoveOnTrack := by
  subst hcfg hout
  intro dir' n' i' L' hrun'
  cases hrun.symm.trans hrun'
  exact ⟨h.dir_eq, h.n_eq, h.lim_eq, h.m_lt, h.it_le, h.phase, h.at_micro, h.past_micro, h.at_done, h.lines⟩

/-- Where no SMOVE runs, `smoveOnTrack` says nothing. -/
theorem smoveOnTrack_of_ne {s : State} (h : ∀ dir n i L, s.seq ≠ .run (.smove dir n) i L) : s.smoveOnTrack :=
  fun dir n i L hrun => absurd hrun (h dir n i L)

/-- How many μ-operations SMOVE has (44_stepper.md R101). -/
theorem progSmove_length (p : Params) : (progSmove p).length = 2 * accessSteps p + 4 := by
  have hlen := progOf_length (p := p) (c := .smove 1 0) rfl
  simp only [waitStart, reduceCtorEq, if_false] at hlen
  exact hlen.trans (by omega)

/-- The limit of an SMOVE that is not rejected is at least 1 (30_encoding.md R56, 44_stepper.md R100). -/
theorem one_le_iterationLimit_of_accepted {p : Params} {dir : BitVec 4} {n : Nat}
    (h : rejectOf p (.smove dir n) = none) : 1 ≤ iterationLimit p.seqMode n := by
  refine one_le_iterationLimit ?_
  cases hmode : p.seqMode with
  | compatible => exact .inl rfl
  | strict =>
    right
    by_contra hn
    rw [rejectOf_smove_strict hmode, if_pos (Nat.eq_zero_of_not_pos hn)] at h
    split at h <;> cases h

/-- An accepted SMOVE starts on the track (44_stepper.md R101). -/
theorem SmoveTrack.start {p : Params} {dir : BitVec 4} {n : Nat} (h : rejectOf p (.smove dir n) = none) (out : Byte) :
    SmoveTrack p out dir n 0 (localsSmove p dir n) where
  dir_eq := rfl
  n_eq := rfl
  lim_eq := rfl
  m_lt := Nat.succ_pos 4
  it_le := Nat.zero_le _
  phase := rfl
  at_micro _ := one_le_iterationLimit_of_accepted h
  past_micro := nofun
  at_done hlen := by rw [progSmove_length] at hlen; omega
  lines _ := nofun

/-- Inside the pacing wait the place and the locals `d` and `v` may change (44_stepper.md R101). -/
theorem SmoveTrack.move {p : Params} {out : Byte} {dir : BitVec 4} {n i j e : Nat} {L : Locals} {v : Word}
    (h : SmoveTrack p out dir n i L) (hi : 0 < i) (hj : 0 < j) (hdone : j + 1 = (progSmove p).length → L.it = L.lim) :
    SmoveTrack p out dir n j { L with d := e, v := v } :=
  { h with at_micro := fun h0 => absurd h0 hj.ne', past_micro := fun _ => h.past_micro hi, at_done := hdone }

/-- The stepper bits after MICRO's write (44_stepper.md R99). -/
theorem stepBits_microDrive {s : State} {dir p : BitVec 4}
    (h : validDirection dir = true ∨ s.cfg.invalidDirWrites = true) :
    stepBits s.cfg.stepShift (s.microDrive dir p).portS.out = p := by
  rw [State.microDrive, if_pos (by simpa using h)]
  exact stepBits_merge _ _ _

/-- MICRO keeps the track: one micro-advance more, or the fifth one and with it an iteration (44_stepper.md R99). -/
theorem microStep_micro_smoveOnTrack {s : State} {dir : BitVec 4} {n : Nat} {L : Locals}
    (h : SmoveTrack s.cfg s.portS.out dir n 0 L) : (microStep .micro (.smove dir n) 0 L s).smoveOnTrack := by
  have hit := h.at_micro rfl
  have hm := h.m_lt
  have hphase : advance L.p L.dir = advances dir (Config.microPerStep * L.it + (L.m + 1)) s.cfg.phaseInit := by
    rw [h.phase, h.dir_eq]
    rfl
  have hlines := fun hw => stepBits_microDrive (s := s) (dir := L.dir) (p := advance L.p L.dir) (h.dir_eq ▸ hw)
  simp only [microStep]
  split
  · next hmore =>
    refine SmoveTrack.onTrack (p := s.cfg) ?_ rfl (by simp) rfl
    exact { h with
      m_lt := hmore
      phase := hphase
      past_micro := nofun
      at_micro := fun _ => hit
      lines := fun hw _ => hlines hw }
  · next hfifth =>
    have hlast : L.m + 1 = Config.microPerStep := by omega
    refine SmoveTrack.onTrack (p := s.cfg) ?_ rfl (by simp) rfl
    exact { h with
      m_lt := Nat.succ_pos 4
      it_le := hit
      phase := by rw [hphase, hlast]; rfl
      at_micro := nofun
      past_micro := fun _ => ⟨rfl, Nat.succ_pos _⟩
      at_done := fun hlen => by rw [progSmove_length] at hlen; have := accessSteps_bounds s.cfg; omega
      lines := fun hw _ => hlines hw }

/-- A μ-step of an SMOVE keeps it on the track: MICRO, the pacing wait, its STOP with S3's decision, Done (44_stepper.md
R101). -/
theorem microStep_smoveOnTrack {s : State} {dir : BitVec 4} {n i : Nat} {L : Locals} {op : MicroOp}
    (hop : (progOf s.cfg (.smove dir n))[i]? = some op) (h : SmoveTrack s.cfg s.portS.out dir n i L) :
    (microStep op (.smove dir n) i L s).smoveOnTrack := by
  have hd : waitDuration (.smove dir n) = some Config.paceMs := rfl
  have hlen := progSmove_length s.cfg
  rcases microStep_wait_places (L := L) hd hop with hi | ⟨hlo, -, hport, j, e, v, hj, hj', hseq⟩ |
    ⟨rfl, ⟨_, hmove⟩ | ⟨rfl, _⟩⟩ | ⟨_, _, hsinit⟩ | ⟨_, rfl⟩
  · rcases progOf_before hi hop with ⟨hsinit, _⟩ | ⟨_, rfl, rfl⟩
    · cases hsinit
    · exact microStep_micro_smoveOnTrack h
  · simp only [waitStart] at hlo hj hj'
    exact (h.move hlo hj fun hdone => by omega).onTrack hseq (microStep_cfg _ _ _ _ _) (by rw [hport])
  · exact absurd ⟨dir, n, rfl⟩ hmove
  · have hi : 0 < waitStart (.smove dir n) + 2 * accessSteps s.cfg + 1 := Nat.succ_pos _
    refine SmoveTrack.onTrack (p := s.cfg) (L := L) ?_ rfl rfl rfl
    split
    · next hmore =>
      exact { h with at_micro := fun _ => hmore, past_micro := nofun, at_done := fun hdone => by omega }
    · next hlast => exact h.move hi (Nat.succ_pos _) fun _ => le_antisymm h.it_le (Nat.le_of_not_lt hlast)
  · cases hsinit
  · exact smoveOnTrack_of_ne nofun

/-- Settles O58: an SMOVE starts on the track, each of its μ-steps keeps it there, and no other agent writes what the
track reads. -/
theorem smovePhaseInvariant : Obligations.SmovePhaseInvariant := by
  intro s t hs h
  refine step_preserves_track ?congr ?idle ?accepted ?micro hs h
  case congr =>
    rintro u v ⟨hcfg, hseq, hport, _⟩ hu
    simpa only [State.smoveOnTrack, hcfg, hseq, hport] using hu
  case idle => exact fun u hidle => smoveOnTrack_of_ne fun dir n i L hrun => by cases hidle.symm.trans hrun
  case accepted =>
    intro u c hr
    by_cases hc : ∃ dir n, c = .smove dir n
    · obtain ⟨dir, n, rfl⟩ := hc
      exact (SmoveTrack.start hr _).onTrack rfl rfl rfl
    · exact smoveOnTrack_of_ne fun dir n i L hrun => hc ⟨dir, n, (Seq.run.inj hrun).1⟩
  case micro =>
    intro u c i L op hrun hop hu
    by_cases hc : ∃ dir n, c = .smove dir n
    · obtain ⟨dir, n, rfl⟩ := hc
      exact microStep_smoveOnTrack hop (smoveTrack_of_run hu hrun)
    · exact smoveOnTrack_of_ne fun dir n j M hrun' => hc ⟨dir, n, (command_of_microStep_seq hrun').symm⟩

/-- Settles O36: at Done `SmoveTrack` says that `lim` iterations of five micro-advances were made and that the lines show
the phase; five times `lim` is `lim` modulo four. -/
theorem smoveEndsAtPhase : Obligations.SmoveEndsAtPhase := by
  intro s dir n L hs hdir hrun
  have htrack := smoveTrack_of_run hs hrun
  have hlen : (progOf s.cfg (.smove dir n)).length = 2 * accessSteps s.cfg + 4 := progSmove_length s.cfg
  obtain ⟨hm, hit⟩ := htrack.past_micro (by omega)
  have hlim : L.it = iterationLimit s.cfg.seqMode n :=
    (htrack.at_done (Nat.sub_add_cancel (by omega))).trans htrack.lim_eq
  refine ⟨_, (doneEndsCommand _ s L hrun).2, rfl, rfl, ?_⟩
  calc stepBits s.cfg.stepShift s.portS.out
    _ = L.p := htrack.lines (.inl hdir) (by simp only [Config.microPerStep]; omega)
    _ = advances dir (5 * iterationLimit s.cfg.seqMode n) s.cfg.phaseInit := by
      rw [htrack.phase, hm, hlim]
      rfl
    _ = advances dir (iterationLimit s.cfg.seqMode n % 4) s.cfg.phaseInit := by
      rw [advances_mod_four hdir,
        show 5 * iterationLimit s.cfg.seqMode n % 4 = iterationLimit s.cfg.seqMode n % 4 by omega]

/-! ### SINIT -/

/-- `sinitOnTrack` of an SINIT at index `i`, field by field (44_stepper.md R95, R98). -/
structure SinitTrack (p : Params) (ddr out : Byte) (i : Nat) : Prop where
  outputs : 0 < i → stepBits p.stepShift ddr = 0b1111
  pattern : 1 < i → i + 1 < (progSinit p).length → stepBits p.stepShift out = p.stepInitPattern
  cleared : i + 1 = (progSinit p).length → stepBits p.stepShift out = 0

/-- On the track an SINIT meets `SinitTrack`. -/
theorem sinitTrack_of_run {s : State} {i : Nat} {L : Locals} (h : s.sinitOnTrack) (hrun : s.seq = .run .sinit i L) :
    SinitTrack s.cfg s.portS.ddr s.portS.out i := by
  obtain ⟨houtputs, hpattern, hcleared⟩ := h i L hrun
  exact ⟨houtputs, hpattern, hcleared⟩

/-- An SINIT that meets `SinitTrack` is on the track. -/
theorem SinitTrack.onTrack {s : State} {p : Params} {x : Port} {i : Nat} {L : Locals} (h : SinitTrack p x.ddr x.out i)
    (hrun : s.seq = .run .sinit i L) (hcfg : s.cfg = p) (hport : s.portS = x) : s.sinitOnTrack := by
  subst hcfg hport
  intro i' L' hrun'
  cases hrun.symm.trans hrun'
  exact ⟨h.outputs, h.pattern, h.cleared⟩

/-- Where no SINIT runs, `sinitOnTrack` says nothing. -/
theorem sinitOnTrack_of_ne {s : State} (h : ∀ i L, s.seq ≠ .run .sinit i L) : s.sinitOnTrack :=
  fun i L hrun => absurd hrun (h i L)

/-- How many μ-operations SINIT has (44_stepper.md R97). -/
theorem progSinit_length (p : Params) : (progSinit p).length = 2 * accessSteps p + 6 := by
  have hlen := progOf_length (p := p) (c := .sinit) rfl
  simp only [waitStart, if_true] at hlen
  exact hlen.trans (by omega)

/-- An SINIT starts on the track: nothing is said at index 0. -/
theorem SinitTrack.start (p : Params) (ddr out : Byte) : SinitTrack p ddr out 0 where
  outputs := nofun
  pattern := nofun
  cleared hlen := by rw [progSinit_length] at hlen; omega

/-- A μ-step of an SINIT keeps it on the track: SDIR, SPAT, the settle wait, SCLR, Done (44_stepper.md R95 to R97). -/
theorem microStep_sinitOnTrack {s : State} {i : Nat} {L : Locals} {op : MicroOp}
    (hop : (progOf s.cfg .sinit)[i]? = some op) (h : SinitTrack s.cfg s.portS.ddr s.portS.out i) :
    (microStep op .sinit i L s).sinitOnTrack := by
  have hd : waitDuration .sinit = some Config.settleMs := rfl
  have hlen := progSinit_length s.cfg
  have hsteps := (accessSteps_bounds s.cfg).1
  rcases microStep_wait_places (L := L) hd hop with hi | ⟨hlo, hhi, hport, j, e, v, hj, hj', hseq⟩ |
    ⟨rfl, ⟨rfl, _⟩ | ⟨_, hmove⟩⟩ | ⟨rfl, rfl, _⟩ | ⟨_, rfl⟩
  · rcases progOf_before hi hop with ⟨_, ⟨rfl, rfl⟩ | ⟨rfl, rfl⟩⟩ | ⟨⟨_, _, hmove⟩, _⟩
    · refine SinitTrack.onTrack (p := s.cfg) ?_ rfl rfl rfl
      exact ⟨fun _ => stepBits_or_mask _ _, fun h1 => absurd h1 (by decide), fun hdone => by omega⟩
    · refine SinitTrack.onTrack (p := s.cfg) ?_ rfl rfl rfl
      exact ⟨fun _ => h.outputs Nat.zero_lt_one, fun _ _ => stepBits_merge _ _ _, fun hdone => by omega⟩
    · cases hmove
  · simp only [waitStart] at hlo hhi hj hj'
    refine SinitTrack.onTrack (p := s.cfg) ?_ hseq (microStep_cfg _ _ _ _ _) hport
    exact ⟨fun _ => h.outputs (by omega), fun _ _ => h.pattern (by omega) (by omega), fun hdone => by omega⟩
  · simp only [waitStart] at h ⊢
    refine SinitTrack.onTrack (p := s.cfg) ?_ rfl rfl rfl
    exact ⟨fun _ => h.outputs (by omega), fun _ _ => h.pattern (by omega) (by omega), fun hdone => by omega⟩
  · obtain ⟨_, _, hmove⟩ := hmove
    cases hmove
  · simp only [waitStart] at h ⊢
    refine SinitTrack.onTrack (p := s.cfg) ?_ rfl rfl rfl
    exact ⟨fun _ => h.outputs (by omega), fun _ hdone => by omega, fun _ => stepBits_merge _ _ _⟩
  · exact sinitOnTrack_of_ne nofun

/-- Settles O59: an SINIT starts on the track, each of its μ-steps keeps it there, and no other agent writes what the
track reads. -/
theorem sinitLinesInvariant : Obligations.SinitLinesInvariant := by
  intro s t hs h
  refine step_preserves_track ?congr ?idle ?accepted ?micro hs h
  case congr =>
    rintro u v ⟨hcfg, hseq, hport, _⟩ hu
    simpa only [State.sinitOnTrack, hcfg, hseq, hport] using hu
  case idle => exact fun u hidle => sinitOnTrack_of_ne fun i L hrun => by cases hidle.symm.trans hrun
  case accepted =>
    intro u c _
    by_cases hc : c = .sinit
    · subst hc
      exact (SinitTrack.start u.cfg _ _).onTrack rfl rfl rfl
    · exact sinitOnTrack_of_ne fun i L hrun => hc (Seq.run.inj hrun).1
  case micro =>
    intro u c i L op hrun hop hu
    by_cases hc : c = .sinit
    · subst hc
      exact microStep_sinitOnTrack hop (sinitTrack_of_run hu hrun)
    · exact sinitOnTrack_of_ne fun j M hrun' => hc (command_of_microStep_seq hrun').symm

end Sys2Proof.Machine

namespace Sys2Proof.Machine

/-! SUPPORT. The state at reset, the turns that run a command, and single μ-steps of the timer commands (10_state.md
R11, R28, 30_encoding.md R58, 41_timer.md R64, R73). -/

/-! ### Reset -/

/-- Settles O2: SEQ is Idle at reset, so the invariants of a running command say nothing; TIE and TICKS are 0. -/
theorem resetMeetsInvariants : Obligations.ResetMeetsInvariants :=
  ⟨rfl, fun _ => ⟨nofun, Nat.two_pow_pos _, nofun, waitOnTrack_of_not_waiting nofun, smoveOnTrack_of_ne nofun,
    sinitOnTrack_of_ne nofun⟩⟩

/-- Settles O3: with MODE off and PEND 0 neither MATCH nor ISR is enabled, and each of the three turns passes. -/
theorem resetIsQuiet : Obligations.ResetIsQuiet := by
  intro p t htctrl hseq
  have hidle : t.seq = .idle := hseq
  have hoff : t.tctrl.mode = .off := by rw [htctrl]; rfl
  have hisr : isrEnabled t.tctrl = false := by rw [htctrl]; rfl
  refine ⟨State.busy_eq_false.mpr hidle, by rw [turnEnabled, htctrl]; rfl, hisr, ?_, ?_, ?_⟩
  · simp only [agentTurn, sequencerTurn, hidle]
  · exact congrArg Host.Outcome.next (State.compareMatch_off hoff)
  · exact congrArg Host.Outcome.next (State.takeInterrupt_disabled (by simp [hisr]))

/-! ### Turns that run a command -/

/-- Settles O8: CMD stands at offset 0, and its write while Idle is acceptance of the word. -/
theorem commandWriteRunsCommand : Obligations.CommandWriteRunsCommand := by
  intro s w rest hidle hturn
  have hbusy : ({ s with agenda := rest, readData := none } : State).busy = false := State.busy_eq_false.mpr hidle
  have hstep : step s = acceptWord w { s with agenda := rest, readData := none } := by
    rw [step_hostWrite (off := 0) (r := .cmd) hturn rfl, hostWrite, hbusy, if_neg Bool.false_ne_true]
  exact ⟨hstep, fun i hi => by rw [hstep, acceptWord, hi]⟩

/-- Settles O9: a turn of SEQ is `sequencerTurn`, by whether SEQ runs a command. -/
theorem sequencerTurnRunsCommand : Obligations.SequencerTurnRunsCommand := by
  intro s rest hturn
  rw [step_of_agenda hturn]
  exact ⟨fun c i L hrun => by simp only [agentTurn, sequencerTurn, hrun],
    fun hidle => by simp only [agentTurn, sequencerTurn, hidle]⟩

/-- Settles O10: acceptance without a rejection, after which a command runs. -/
theorem acceptanceStartsCommand : Obligations.AcceptanceStartsCommand :=
  fun _ _ hidle hr => ⟨_, exec_accepted hidle hr, rfl, State.busy_of_run ⟨_, _, _, rfl⟩⟩

/-! ### μ-steps of the timer commands -/

/-- A TCFG with an invalid mode is its Done alone (41_timer.md R64). -/
theorem progOf_tcfg_invalid {m : BitVec 4} (h : modeOperand m = none) (p : Params) :
    progOf p (.tcfg m) = [.done .ok] := by
  simp only [progOf, progTcfg, h]

/-- Settles O15: compatible mode accepts the command, and its only μ-operation is Done. -/
theorem tcfgInvalidModeIsNoOp : Obligations.TcfgInvalidModeIsNoOp := by
  intro s m hidle hcompat h0 h1
  have hmode := modeOperand_eq_none.mpr ⟨h0, h1⟩
  refine ⟨_, exec_accepted hidle (rejectOf_compatible hcompat _), ?_⟩
  rw [exec_running (op := .done .ok) rfl (by rw [progOf_tcfg_invalid hmode]; rfl), microStep_done, State.finish, hidle]

/-- Settles O19: `progOf_cfg` finds CFG(slow) behind the CLEAR. -/
theorem waitConfiguresSlow : Obligations.WaitConfiguresSlow :=
  fun _ _ _ _ hd hrun => exec_running hrun (progOf_cfg hd)

/-- Settles O21: `progOf_stop` finds the STOP, of which only SMOVE's may go back. -/
theorem waitStopsTimer : Obligations.WaitStopsTimer := by
  intro s c d L hd hrun
  rcases progOf_stop (p := s.cfg) hd with ⟨hop, hne⟩ | ⟨hop, hmove⟩
  · exact ⟨_, exec_running hrun hop, fun h => absurd h hne, fun h => absurd h hne, fun _ => rfl⟩
  · refine ⟨_, exec_running hrun hop, fun _ hmore => if_pos hmore, fun _ hlast => ?_, fun h => absurd hmove h⟩
    obtain ⟨dir, n, rfl⟩ := hmove
    rw [if_neg hlast, progOf_length hd]
    rfl

/-! ### Host reads and bad accesses -/

/-- The mapped offsets are multiples of 4 in the window, none of them in the hole (20_memory.md R30). -/
theorem regAtOffset_some {off : Nat} {r : Reg} (h : regAtOffset off = some r) :
    off % 4 = 0 ∧ off ≤ 0x3F ∧ ¬ (0x14 ≤ off ∧ off ≤ 0x1F) := by
  unfold regAtOffset at h
  split at h <;> cases h <;> decide

/-- An access that R31 calls bad reaches no register (20_memory.md R31). -/
theorem regOfAccess_eq_none {p : Params} {addr bytes : Nat}
    (h : bytes ≠ 4 ∨ addr < p.blockBase ∨ (addr - p.blockBase) % 4 ≠ 0 ∨ p.blockBase + 0x3F < addr ∨
      (p.blockBase + 0x14 ≤ addr ∧ addr ≤ p.blockBase + 0x1F)) : regOfAccess p addr bytes = none := by
  unfold regOfAccess
  split
  · next hwin =>
    refine Option.eq_none_iff_forall_ne_some.mpr fun r hr => ?_
    obtain ⟨halign, hend, hhole⟩ := regAtOffset_some hr
    omega
  · rfl

/-- Settles O37: a read and a write of no register both raise BAD_ACCESS. -/
theorem badAccessRaisesFault : Obligations.BadAccessRaisesFault := by
  intro s a addr bytes rest hturn ha hbad
  rw [step_host hturn]
  rcases ha with rfl | ⟨v, rfl⟩ <;> simp only [hostAccess, regOfAccess_eq_none hbad] <;> rfl

/-- A turn in which the host reads a mapped register is that register's `hostRead`. -/
theorem step_hostRead {s : State} {off : Nat} {rest : List Event} {r : Reg}
    (h : s.agenda = .host (.read (s.cfg.blockBase + off) 4) :: rest) (hr : regAtOffset off = some r) :
    step s = .next (State.hostRead { s with agenda := rest, readData := none } r) := by
  simp only [step_host h, hostAccess, regOfAccess_blockBase_add, hr]

/-- The registers whose read draws nothing (20_memory.md R32). -/
def storedRegs : List Reg := [.cmd, .status, .tctrl, .ticks, .tcomp, .sDdr, .sOut, .sPue, .eDdr, .eOut, .ePue]

/-- The offsets of the stored registers (20_memory.md R30). -/
theorem regAtOffset_stored :
    ∀ off ∈ [0x00, 0x04, 0x08, 0x0C, 0x10, 0x20, 0x24, 0x28, 0x30, 0x34, 0x38],
      ∃ r ∈ storedRegs, regAtOffset off = some r := by
  decide

/-- A read of a stored register returns its value, and does not see the agenda or the last read (20_memory.md R32). -/
theorem hostRead_stored {r : Reg} (hr : r ∈ storedRegs) (s : State) (rest : List Event) :
    State.hostRead { s with agenda := rest, readData := none } r =
      { s with agenda := rest, readData := some (regValue s 0 r) } := by
  cases r with
  | sPin | ePin => exact absurd hr (by decide)
  | _ => rfl

/-- Appended fields as a sum: the upper field counts in multiples of the lower one's size. -/
theorem toNat_append_eq_add {m n : Nat} (x : BitVec m) (y : BitVec n) :
    (x ++ y).toNat = x.toNat * 2 ^ n + y.toNat := by
  rw [BitVec.toNat_append, ← Nat.shiftLeft_add_eq_or_of_lt y.isLt, Nat.shiftLeft_eq]

/-- STATUS, field by field (10_state.md R13). -/
theorem statusWord_toNat (s : State) :
    (statusWord s).toNat = (if s.seq = .idle then 0 else 1) + 2 * (resultCode s.result).toNat +
      16 * (deltaCode s.edelta).toNat + 64 * s.prev.toNat + 256 * (if s.cfg.seqMode = .strict then 1 else 0) := by
  have hbusy : s.busy.toNat = if s.seq = .idle then 0 else 1 := by cases h : s.seq <;> simp [State.busy, h]
  have hstrict : (strictBit s.cfg.seqMode).toNat = if s.cfg.seqMode = .strict then 1 else 0 := by
    cases s.cfg.seqMode <;> rfl
  simp only [statusWord, toNat_append_eq_add, BitVec.toNat_ofBool, hbusy, hstrict, BitVec.toNat_ofNat]
  omega

/-- TCTRL, field by field (10_state.md R14). -/
theorem tctrlWord_toNat (t : TimerControl) :
    (tctrlWord t).toNat = (modeCode t.mode).toNat + 4 * t.tie.toNat + 8 * t.gie.toNat + 16 * t.pend.toNat := by
  simp only [tctrlWord, toNat_append_eq_add, BitVec.toNat_ofBool, BitVec.toNat_ofNat]
  omega

/-- A port register read in a 32-bit slot (10_state.md R20). -/
theorem toNat_portWord (x : Byte) : (x.setWidth 32).toNat = x.toNat :=
  BitVec.toNat_setWidth_of_le (by decide)

/-- Settles O41: `hostRead_stored` returns `regValue`, which each clause names for its register. -/
theorem registerReads : Obligations.RegisterReads := by
  intro s off rest hturn hoff
  obtain ⟨r, hstored, hr⟩ := regAtOffset_stored off hoff
  have hval {o : Nat} {x : Reg} (ho : off = o) (hx : regAtOffset o = some x) : regValue s 0 r = regValue s 0 x := by
    subst ho
    rw [Option.some.inj (hr.symm.trans hx)]
  have hnat {o : Nat} {x : Reg} (ho : off = o) (hx : regAtOffset o = some x) :
      (regValue s 0 r).toNat = (regValue s 0 x).toNat := congrArg BitVec.toNat (hval ho hx)
  refine ⟨regValue s 0 r, (step_hostRead hturn hr).trans (congrArg Host.Outcome.next (hostRead_stored hstored s rest)),
    fun h => hval h rfl, fun h => ⟨(hnat h rfl).trans (statusWord_toNat s), ⟨rfl, rfl, rfl, rfl, rfl⟩, rfl, rfl, rfl⟩,
    fun h => ⟨(hnat h rfl).trans (tctrlWord_toNat s.tctrl), rfl, rfl, rfl⟩,
    fun h => (hnat h rfl).trans s.tickValue_toNat,
    fun h => hval h rfl, ?_, ?_, ?_, ?_, ?_, ?_⟩
  all_goals exact fun h => (hnat h rfl).trans (toNat_portWord _)

/-- A draw does not see the agenda or the last read (log 8). -/
theorem State.afterDraw_withAgenda (s : State) (rest : List Event) (d : Option Word) :
    ({ s with agenda := rest, readData := d } : State).afterDraw =
      { s.afterDraw with agenda := rest, readData := d } := by
  unfold State.afterDraw
  cases s.draws <;> rfl

/-- The bits of a pin register (10_state.md R21, 20_memory.md R32). -/
theorem pinWord_bit (x : Port) (levels : Byte) (b : Nat) :
    ((pinLevels x levels).setWidth 32).getLsbD b =
      (decide (b < 8) && if x.ddr.getLsbD b then x.out.getLsbD b else levels.getLsbD b) := by
  rw [BitVec.getLsbD_setWidth]
  by_cases hb : b < 8
  · rw [pinLevels_bit x levels b hb]
    simp [hb, show b < 32 by omega]
  · simp [hb, BitVec.getLsbD_of_ge _ b (Nat.le_of_not_lt hb)]

/-- Settles O42: each pin register's read is its port's `pinLevels` of one draw, which `pinWord_bit` gives bit by bit. -/
theorem pinReads : Obligations.PinReads := by
  intro s off x rest hturn hx
  refine ⟨(pinLevels x s.drawnLevels).setWidth 32, ?_, pinWord_bit x s.drawnLevels⟩
  rcases hx with ⟨rfl, rfl⟩ | ⟨rfl, rfl⟩
  · rw [step_hostRead (r := .sPin) hturn rfl, State.hostRead, State.afterDraw_withAgenda]
    rfl
  · rw [step_hostRead (r := .ePin) hturn rfl, State.hostRead, State.afterDraw_withAgenda]
    rfl

end Sys2Proof.Machine

namespace Sys2Proof.Machine

/-! SUPPORT. Whole commands under a schedule (41_timer.md R67, R76, 43_quadrature.md R91, 44_stepper.md R98, R101 to
R105). -/

/-! ### The start of a run -/

/-- The host writes a command that is not rejected while SEQ is Idle: the run goes on from its index 0 (30_encoding.md
R58). -/
theorem runUnder_accepted {s t : State} {c : Instr} {es : List Event} (hidle : s.seq = .idle)
    (hwf : c.wellFormed = true) (hr : rejectOf s.cfg c = none) (ht : t.cfg.blockBase = s.cfg.blockBase) :
    runUnder (writeCommand t (encode c) :: es) s =
      runUnder es { s with seq := .run c 0 (localsOf s.cfg c), readData := none } := by
  rw [runUnder_command es hidle (decodeOfEncode c hwf) ht, hr, accept, State.goto]

/-- A run that ends with a command's Done (10_state.md R12). -/
theorem runUnder_done {s : State} {c : Instr} {i : Nat} {L : Locals} {es : List Event} (hrun : s.seq = .run c i L)
    (hop : (progOf s.cfg c)[i]? = some (.done .ok)) :
    runUnder (.seq :: es) s = runUnder es { s with result := .ok, seq := .idle } := by
  rw [runUnder_seq es hrun hop, microStep_done, State.finish]

/-! ### TSTOP and EREAD -/

/-- The state after a whole TSTOP: the timer stopped, RESULT = 0 (41_timer.md R65, R66; `readData`: log 15). -/
def State.afterTstop (s : State) : State :=
  { s with tctrl := { s.tctrl with mode := .off, tie := false }, result := .ok, readData := none }

/-- A whole TSTOP, from Idle to Idle (41_timer.md R66). -/
theorem runUnder_tstop {s t : State} {es : List Event} (hidle : s.seq = .idle)
    (ht : t.cfg.blockBase = s.cfg.blockBase) :
    runUnder (writeCommand t (encode .tstop) :: .seq :: .seq :: es) s = runUnder es s.afterTstop := by
  rw [runUnder_accepted hidle rfl rfl ht, runUnder_seq (op := .stop) _ rfl rfl, runUnder_done (i := 1) rfl rfl,
    microStep, State.goto, State.timerStop, State.afterTstop]
  simp only [hidle]

/-- Settles O17: `runUnder_tstop` once and twice. -/
theorem tstopIsIdempotent : Obligations.TstopIsIdempotent := by
  intro s hidle
  refine ⟨{ s.afterTstop with agenda := [] }, ?_, ?_, rfl⟩
  · rw [runUnder_tstop hidle rfl, runUnder_nil]
  · rw [runUnder_tstop hidle rfl, runUnder_tstop (s := s.afterTstop) (t := s) hidle rfl, runUnder_nil]
    rfl

/-- Settles O28: away from the detent neither row of Q that reports a rotation applies, whatever the sample. -/
theorem ereadOffDetentReportsZero : Obligations.EreadOffDetentReportsZero := by
  intro s hidle hprev
  rw [runUnder_accepted hidle rfl rfl rfl, runUnder_seq (op := .esample) _ rfl rfl,
    runUnder_done (i := 1) rfl (by rw [microStep_cfg]; rfl), runUnder_nil]
  exact ⟨_, rfl, quadrature_eq_zero (fun h => hprev h.1) (fun h => hprev h.1), rfl, rfl⟩

/-! ### The place behind an atomic WaitProg -/

/-- In WAIT and SMOVE Done stands behind the STOP of an atomic WaitProg (41_timer.md R76, 44_stepper.md R101). -/
theorem progOf_done_atomic {p : Params} {c : Instr} {d : Nat} (hd : waitDuration c = some d)
    (hatomic : p.tickAtomic = true) (hc : c ≠ .sinit) : (progOf p c)[waitStart c + 4]? = some (.done .ok) := by
  have hdone := progOf_done p c
  rwa [progOf_length hd, accessSteps_atomic hatomic, if_neg hc] at hdone

/-- SINIT's Done stands behind its SCLR (44_stepper.md R97). -/
theorem progOf_sinit_done_atomic {p : Params} (hatomic : p.tickAtomic = true) :
    (progOf p .sinit)[7]? = some (.done .ok) := by
  have hdone := progOf_done p .sinit
  rwa [progOf_length (c := .sinit) rfl, accessSteps_atomic hatomic] at hdone

/-- Two ticks fit TICKS, whatever TICK_W. -/
theorem two_lt_two_pow_tickBits (p : Params) : 2 < 2 ^ p.tickW.bits := by
  cases p.tickW <;> decide

/-! ### WAIT and SINIT -/

/-- Settles O22: `runUnder_waitTurns` from index 0, then Done. -/
theorem waitUnderReferenceSchedule : Obligations.WaitUnderReferenceSchedule := by
  intro s d hidle hatomic hd hd16
  have hwait : waitDuration (.wait d) = some d := rfl
  have hnomove : ¬ ((∃ dir n, Instr.wait d = .smove dir n) ∧ (localsWait d).it < (localsWait d).lim) := by simp
  rw [List.cons_append, runUnder_accepted (c := .wait d) hidle (decide_eq_true hd16) rfl rfl,
    runUnder_waitTurns (L := localsWait d) hwait ?atomic ?fits rfl, if_neg hnomove,
    runUnder_done (i := waitStart (.wait d) + 4) rfl ?done, runUnder_nil]
  · simp only [hidle]
  case atomic => exact hatomic
  case fits => exact hd
  case done => exact progOf_done_atomic hwait hatomic (by simp)

/-- Settles O33: SDIR and SPAT, `runUnder_waitTurns` from index 2, SCLR and Done; of the two writes of S_OUT the last one
stands. -/
theorem sinitUnderReferenceSchedule : Obligations.SinitUnderReferenceSchedule := by
  intro s hidle hatomic
  have hwait : waitDuration .sinit = some 2 := rfl
  have hnomove : ¬ ((∃ dir n, Instr.sinit = .smove dir n) ∧ noLocals.it < noLocals.lim) := by simp
  have hsclr : (progOf s.cfg .sinit)[6]? = some .sclr := by
    simpa [accessSteps_atomic hatomic] using progOf_sclr s.cfg
  refine ⟨s.portS.ddr ||| stepMask s.cfg.stepShift, merge s.cfg.stepShift s.portS.out 0, ?_, fun b hb => ?_⟩
  · rw [List.cons_append, List.cons_append, List.cons_append, runUnder_accepted hidle rfl rfl rfl,
      runUnder_seq (op := .sdir) _ rfl rfl, runUnder_seq (i := 1) (L := noLocals) (op := .spat) _ rfl rfl,
      runUnder_waitTurns (L := noLocals) hwait ?atomic (two_lt_two_pow_tickBits _) rfl, if_neg hnomove,
      runUnder_seq (i := 6) (op := .sclr) _ rfl ?sclr, runUnder_done (i := 7) rfl ?done, runUnder_nil]
    · simp only [microStep, State.goto, State.stepperDrive, State.stepperOutputs, merge_merge, hidle]
      rfl
    case atomic => exact hatomic
    case sclr => exact hsclr
    case done => exact progOf_sinit_done_atomic hatomic
  · rw [getLsbD_or_stepMask _ _ hb, merge_bit _ _ _ _ hb]
    split_ifs with hstep <;> simp [hstep]

/-! ### SMOVE -/

/-- The state with an SMOVE's last iteration made under S_REF: `k` micro-advances on from phase `p` written, where the
direction writes, the pacing wait over with two ticks, SEQ at `q` (44_stepper.md R99 to R101). -/
def State.afterPacing (s : State) (dir p : BitVec 4) (k : Nat) (q : Seq) : State :=
  { s with
    seq := q
    portS := if validDirection dir = true ∨ s.cfg.invalidDirWrites = true
      then { s.portS with out := merge s.cfg.stepShift s.portS.out (advances dir k p) } else s.portS
    ticks := 2
    tctrl := { mode := .off, tie := false, gie := true, pend := false }
    tcomp := Config.ocrSlow }

/-- Of the iterations made one after the other the last one's write stands (44_stepper.md R103). -/
theorem State.afterPacing_afterPacing (s : State) (dir p : BitVec 4) (j k : Nat) (q q' : Seq) :
    (s.afterPacing dir p j q).afterPacing dir (advances dir j p) k q' = s.afterPacing dir p (j + k) q' := by
  unfold State.afterPacing
  split_ifs <;> simp [merge_merge, advances_add]

/-- One SMOVE iteration under S_REF: five micro-advances and the pacing wait, then MICRO again or Done (44_stepper.md
R101). -/
theorem runUnder_iteration {s : State} {dir : BitVec 4} {n : Nat} {L : Locals} {es : List Event}
    (hatomic : s.cfg.tickAtomic = true) (hm : L.m = 0) (hrun : s.seq = .run (.smove dir n) 0 L) :
    runUnder (iterationTurns ++ es) s = runUnder es (s.afterPacing L.dir L.p 5
      (.run (.smove dir n) (if L.it + 1 < L.lim then 0 else 5)
        { L with d := 2, v := 2, p := advances L.dir 5 L.p, m := 0, it := L.it + 1 })) := by
  have hwait : waitDuration (.smove dir n) = some 2 := rfl
  rw [iterationTurns, List.append_assoc, Config.microPerStep, runUnder_micros dir n _ s L 4 (by omega) hrun,
    Config.paceMs, runUnder_waitTurns (L := { L with p := advances L.dir 5 L.p, m := 0, it := L.it + 1 }) hwait ?atomic
      (two_lt_two_pow_tickBits _) rfl]
  · simp [State.afterPacing, waitStart]
  case atomic => exact hatomic

/-- The iterations that remain of an SMOVE, under S_REF (44_stepper.md R101 to R103). -/
theorem runUnder_iterations {dir : BitVec 4} {n : Nat} (k : Nat) {s : State} {L : Locals}
    (hatomic : s.cfg.tickAtomic = true) (hm : L.m = 0) (hleft : L.it + (k + 1) = L.lim)
    (hrun : s.seq = .run (.smove dir n) 0 L) :
    runUnder ((List.replicate (k + 1) iterationTurns).flatten ++ [.seq]) s =
      .next { s.afterPacing L.dir L.p (5 * (k + 1)) .idle with result := .ok, agenda := [] } := by
  induction k generalizing s L with
  | zero =>
    have hlast : ¬ L.it + 1 < L.lim := by omega
    rw [List.replicate_succ, List.flatten_cons, List.append_assoc, runUnder_iteration hatomic hm hrun, if_neg hlast,
      List.replicate_zero, List.flatten_nil, List.nil_append, runUnder_done (i := 5) rfl ?done, runUnder_nil]
    · rfl
    case done => exact progOf_done_atomic (c := .smove dir n) rfl hatomic (by simp)
  | succ k ih =>
    have hmore : L.it + 1 < L.lim := by omega
    rw [List.replicate_succ, List.flatten_cons, List.append_assoc, runUnder_iteration hatomic hm hrun, if_pos hmore,
      ih ?atomic rfl ?left rfl, State.afterPacing_afterPacing, Nat.mul_succ 5 (k + 1), Nat.add_comm (5 * (k + 1))]
    case atomic => exact hatomic
    case left => exact (by omega : L.it + 1 + (k + 1) = L.lim)

/-- Settles O35: the limit is at least 1, and `runUnder_iterations` makes so many iterations from the initial locals. -/
theorem smoveUnderReferenceSchedule : Obligations.SmoveUnderReferenceSchedule := by
  intro s dir n lim hidle hatomic hn hr hlim
  have hpos : 1 ≤ lim := hlim ▸ one_le_iterationLimit_of_accepted hr
  obtain ⟨k, rfl⟩ := Nat.exists_eq_add_of_le' hpos
  rw [List.cons_append, runUnder_accepted (c := .smove dir n) hidle (decide_eq_true hn) hr rfl,
    runUnder_iterations (L := localsSmove s.cfg dir n) k ?atomic rfl ?left rfl]
  · simp only [State.afterPacing, localsSmove, hidle]
    rfl
  case atomic => exact hatomic
  case left => exact (Nat.zero_add _).trans hlim

end Sys2Proof.Machine
